-- ==== Sys2Proof/Word.lean ====
section
/-! DEFINITION. The values of the machine: mathematical integers (00_scope.md R9). There is no bit-level view of any value, so words, addresses and the accumulator are all of the type Int. A word is an Int in [0, 999] (R9, R51) and an address an Int in [0, 99] (R50); the type is not bounded, so that a statement about a word outside the range (R85, D34) or an address outside memory (R55) has something to speak of. -/

namespace Sys2Proof

/-- `in_range(v, lo, hi)` of R11. -/
abbrev InRange (v lo hi : Int) : Prop := lo ≤ v ∧ v ≤ hi

end Sys2Proof
end

