-- ==== Sys2Proof/Syntax.lean ====
section
/-! DEFINITION. The instructions: one constructor per row of spec/opcode_table.json (30_encoding.md R83, R84). -/

namespace Sys2Proof

/-- An instruction, as the decoder of R83 reads it from `(IR, AR)`. The argument of a constructor is the operand
`AR` (R81), kept also where it is ignored, so that no digit of a word is dropped. -/
inductive Instr where
  /-- HLT, words 000 to 099; the operand is ignored (R87, R160). -/
  | hlt (a : Int)
  /-- ADD, words 100 to 199 (R170). -/
  | add (a : Int)
  /-- SUB, words 200 to 299 (R171). -/
  | sub (a : Int)
  /-- STA, words 300 to 399; STO is the same instruction (R111, R180). -/
  | sta (a : Int)
  /-- (InvalidOpcode), words 400 to 499; the operand is ignored (R85, R136). -/
  | invalidOpcode (a : Int)
  /-- LDA, words 500 to 599 (R181). -/
  | lda (a : Int)
  /-- BRA, words 600 to 699 (R190). -/
  | bra (a : Int)
  /-- BRZ, words 700 to 799 (R191). -/
  | brz (a : Int)
  /-- BRP, words 800 to 899 (R192). -/
  | brp (a : Int)
  /-- INP, word 901 (R200). -/
  | inp
  /-- OUT, word 902 (R203). -/
  | out
  /-- IO_RESERVED, words 900 and 903 to 999: a no-op (R86, R205). -/
  | ioReserved (a : Int)
  deriving DecidableEq, Repr

end Sys2Proof
end

