-- ==== Sys2Proof/WellFormed.lean ====
section
/-! DEFINITION. Which instruction terms stand for a word of [0, 999] (30_encoding.md R80, R81, R84). -/

namespace Sys2Proof

/-- The operand field holds two decimal digits (R80). -/
abbrev OperandOk (a : Int) : Prop := InRange a 0 99

/-- A well-formed instruction: its operand is a two-digit number, and the operand of the reserved I/O row is
neither of the two selectors that choose INP and OUT (R83, R86). -/
def Instr.wellFormed : Instr → Bool
  | .hlt a => decide (OperandOk a)
  | .add a => decide (OperandOk a)
  | .sub a => decide (OperandOk a)
  | .sta a => decide (OperandOk a)
  | .invalidOpcode a => decide (OperandOk a)
  | .lda a => decide (OperandOk a)
  | .bra a => decide (OperandOk a)
  | .brz a => decide (OperandOk a)
  | .brp a => decide (OperandOk a)
  | .inp => true
  | .out => true
  | .ioReserved a => decide (OperandOk a ∧ a ≠ 1 ∧ a ≠ 2)

end Sys2Proof
end

