-- ==== Sys2Proof/Decode.lean ====
section
/-! DEFINITION. The decoder, the encoder and the opcode map (30_encoding.md R80 to R89). -/

namespace Sys2Proof

/-- The opcode of a word: its hundreds digit, `w div 100`, rounding toward negative infinity (R9, R10, R80). -/
def opcodeOf (w : Int) : Int := w / 100

/-- The operand of a word: its two low digits, `w mod 100` (R10, R80, R81). -/
def operandOf (w : Int) : Int := w % 100

/-- Why a word is no instruction. -/
inductive DecodeError where
  /-- The opcode is not a decimal digit, which only a word outside [0, 999] has (R85, D34). -/
  | opcodeOutOfRange (ir : Int)
  deriving DecidableEq, Repr

/-- The decoder on `(IR, AR)`, case for case as R83 lists it. -/
def decodeFields (ir ar : Int) : Except DecodeError Instr :=
  if ir = 0 then .ok (.hlt ar)
  else if ir = 1 then .ok (.add ar)
  else if ir = 2 then .ok (.sub ar)
  else if ir = 3 then .ok (.sta ar)
  else if ir = 4 then .ok (.invalidOpcode ar)
  else if ir = 5 then .ok (.lda ar)
  else if ir = 6 then .ok (.bra ar)
  else if ir = 7 then .ok (.brz ar)
  else if ir = 8 then .ok (.brp ar)
  else if ir = 9 then
    if ar = 1 then .ok .inp
    else if ar = 2 then .ok .out
    else .ok (.ioReserved ar)
  else .error (.opcodeOutOfRange ir)

/-- The decoder on a word: the fetch's split, then `decodeFields` (R80, R83). -/
def decode (w : Int) : Except DecodeError Instr :=
  decodeFields (opcodeOf w) (operandOf w)

/-- The word of an instruction, `opcode*100 + operand`, or the fixed code of INP and OUT (R80, R84, R109). -/
def encode : Instr → Int
  | .hlt a => a
  | .add a => 100 + a
  | .sub a => 200 + a
  | .sta a => 300 + a
  | .invalidOpcode a => 400 + a
  | .lda a => 500 + a
  | .bra a => 600 + a
  | .brz a => 700 + a
  | .brp a => 800 + a
  | .inp => 901
  | .out => 902
  | .ioReserved a => 900 + a

/-- The opcode digit of an instruction's row (R84). -/
def Instr.opcode : Instr → Int
  | .hlt _ => 0
  | .add _ => 1
  | .sub _ => 2
  | .sta _ => 3
  | .invalidOpcode _ => 4
  | .lda _ => 5
  | .bra _ => 6
  | .brz _ => 7
  | .brp _ => 8
  | .inp => 9
  | .out => 9
  | .ioReserved _ => 9

/-- The operand of an instruction: its argument, or the selector of INP and OUT (R83, R84). -/
def Instr.operand : Instr → Int
  | .hlt a => a
  | .add a => a
  | .sub a => a
  | .sta a => a
  | .invalidOpcode a => a
  | .lda a => a
  | .bra a => a
  | .brz a => a
  | .brp a => a
  | .inp => 1
  | .out => 2
  | .ioReserved a => a

/-- The instruction the decoder reads from an opcode-table word. A word of this machine is a decimal integer and has
no bits of its own (R9, R62): the host's number `w` is taken as the word's value, and `nbits` says nothing more
(log 10, DESIGN CHOICE). -/
def decodeTableWord (_nbits w : Nat) : Option Instr :=
  match decode (w : Int) with
  | .ok i => some i
  | .error _ => none

/-- One row of the opcode map: a mnemonic and the ranges of words it covers (R84; spec/opcode_table.json). -/
structure OpcodeRow where
  mnemonic : String
  wordRanges : List (Int × Int)
  deriving DecidableEq, Repr

/-- A row covers a word when one of its ranges holds it. -/
def OpcodeRow.covers (r : OpcodeRow) (w : Int) : Bool :=
  r.wordRanges.any fun p => decide (InRange w p.1 p.2)

/-- The opcode map, row for row as spec/opcode_table.json lists it (R84). The decoder is not defined from it. -/
def opcodeTable : List OpcodeRow :=
  [ ⟨"HLT", [(0, 99)]⟩,
    ⟨"ADD", [(100, 199)]⟩,
    ⟨"SUB", [(200, 299)]⟩,
    ⟨"STA", [(300, 399)]⟩,
    ⟨"(InvalidOpcode)", [(400, 499)]⟩,
    ⟨"LDA", [(500, 599)]⟩,
    ⟨"BRA", [(600, 699)]⟩,
    ⟨"BRZ", [(700, 799)]⟩,
    ⟨"BRP", [(800, 899)]⟩,
    ⟨"INP", [(901, 901)]⟩,
    ⟨"OUT", [(902, 902)]⟩,
    ⟨"IO_RESERVED", [(900, 900), (903, 999)]⟩ ]

/-- The mnemonic of an instruction's row (R84). -/
def Instr.mnemonic : Instr → String
  | .hlt _ => "HLT"
  | .add _ => "ADD"
  | .sub _ => "SUB"
  | .sta _ => "STA"
  | .invalidOpcode _ => "(InvalidOpcode)"
  | .lda _ => "LDA"
  | .bra _ => "BRA"
  | .brz _ => "BRZ"
  | .brp _ => "BRP"
  | .inp => "INP"
  | .out => "OUT"
  | .ioReserved _ => "IO_RESERVED"

end Sys2Proof
end

