-- ==== Sys2Proof/Config.lean ====
section
/-! DEFINITION. The parameters of this hardware (00_scope.md R8). The spec leaves no value free, so there is no opaque constant here. -/

namespace Sys2Proof.Config

/-- `MEM_SIZE`: the number of memory cells (R8, R50). -/
abbrev memSize : Nat := 100
/-- The lowest valid word address (R50). -/
abbrev addrMin : Int := 0
/-- The highest valid word address, `MEM_SIZE - 1` (R50). -/
abbrev addrMax : Int := 99
/-- `WORD_MIN` (R8, R51). -/
abbrev wordMin : Int := 0
/-- `WORD_MAX` (R8, R51). -/
abbrev wordMax : Int := 999
/-- `ACC_MIN` (R8, R25; the spec's decision D2). -/
abbrev accMin : Int := -999
/-- `ACC_MAX` (R8, R25; the spec's decision D2). -/
abbrev accMax : Int := 999
/-- The least input value INP accepts (R8, R202; the spec's decision D13). -/
abbrev inputMin : Int := -999
/-- The greatest input value INP accepts (R8, R202; the spec's decision D13). -/
abbrev inputMax : Int := 999
/-- The reset entry point (R34, R64, R251). -/
abbrev resetPc : Int := 0

end Sys2Proof.Config
end

