-- ==== Sys2Proof/Machine/State.lean ====
section
/-! DEFINITION. The state of the machine: the core's registers (10_state.md R20), the memory (20_memory.md R50) and the two devices as the core sees them (45_io.md R201, R204). -/

namespace Sys2Proof.Machine

/-- `PHASE` (R27). -/
inductive Phase where
  | fetch
  | execute
  | waitInput
  | halted
  | faulted
  deriving DecidableEq, Repr

/-- The kinds of fault the core raises, in the order of their codes (R220). -/
inductive FaultKind where
  | outOfRangeAddress
  | invalidOpcode
  | invalidInput
  | inputExhausted
  | accumulatorOverflow
  | wordOutOfRange
  deriving DecidableEq, Repr

/-- The record `{kind, code, pc, word}` of `FAULT` (R28). -/
structure FaultRecord where
  kind : FaultKind
  code : Nat
  pc : Int
  word : Option Int
  deriving DecidableEq, Repr

/-- One answer of the input device (R201). -/
inductive Answer where
  /-- the device parsed one decimal integer -/
  | value (v : Int)
  /-- the line was not an integer -/
  | invalid
  /-- the device has no more input -/
  | exhausted
  deriving DecidableEq, Repr

/-- One transaction on the memory port, with the address and the data it carries (R58). -/
inductive Transaction where
  | read (addr : Int) (data : Int)
  | write (addr : Int) (data : Int)
  deriving DecidableEq, Repr

/-- A memory cell that is listed: its address and the word it holds. The unit of storage is the decimal word, not
the byte (R60, R62), so the pair holds a word where a byte machine's would hold a byte (log 1). -/
abbrev MemCell := Nat × Int

/-- The memory: the cells whose word is not 0, addresses strictly rising (R50, R53; `Memory.wf`). -/
abbrev Memory := List MemCell

/-- The state. The first seven fields are the core's (R20); `mem` is the memory outside it; `input`, `out` and
`port` are what the devices hold and what the memory port has carried. -/
structure State where
  /-- `PC`, in [0, 100] (R22) -/
  pc : Int
  /-- `IR`, in [0, 9] (R23) -/
  ir : Int
  /-- `AR`, in [0, 99] (R24) -/
  ar : Int
  /-- `ACC`, in [-999, 999] (R25) -/
  acc : Int
  /-- `HALTED` (R26) -/
  halted : Bool
  /-- `PHASE` (R27) -/
  phase : Phase
  /-- `FAULT` (R28) -/
  fault : Option FaultRecord
  /-- the 100 words of memory (R50) -/
  mem : Memory
  /-- the answers the input device has still to give, oldest first (R201; log 3) -/
  input : List Answer
  /-- the output trace, oldest first (R204) -/
  out : List Int
  /-- the transactions the memory port has carried, oldest first (R58, R140; log 7) -/
  port : List Transaction
  deriving DecidableEq, Repr

/-- The faults that stop the MODEL. There is none: every fault of the spec is an entry into the phase FAULTED, a
next state (R223), so no step ends in a fault of this type (log 18). -/
inductive Fault where
  deriving DecidableEq, Repr

/-- The refusals of the model. -/
inductive Refusal where
  /-- Raised only by an arm of `exec` for an instruction without a meaning, and no arm is one; safe. -/
  | notModelled (mnemonic : String)
  deriving DecidableEq, Repr

/-- The machine right after reset (R34, R250), its memory just created (R53), with nothing emitted, no answer
queued and no transaction made (log 2, log 3, log 7). -/
def State.reset : State where
  pc := Config.resetPc
  ir := 0
  ar := 0
  acc := 0
  halted := false
  phase := .fetch
  fault := none
  mem := []
  input := []
  out := []
  port := []

end Sys2Proof.Machine
end

