-- ==== Sys2Proof/Machine/Flags.lean ====
section
/-! DEFINITION. The tests on values. The core has no condition codes (10_state.md R29): the branches test ACC itself, and the range checks decide faults. -/

namespace Sys2Proof.Machine

/-- The value lies in the accumulator's range (R25, R172). -/
abbrev AccFits (r : Int) : Prop := InRange r Config.accMin Config.accMax

/-- The value can be stored as a word (R51, R180). -/
abbrev WordFits (v : Int) : Prop := InRange v Config.wordMin Config.wordMax

/-- The input value is one INP accepts (R202). -/
abbrev InputFits (v : Int) : Prop := InRange v Config.inputMin Config.inputMax

/-- The address names a memory cell (R55). -/
abbrev AddrValid (a : Int) : Prop := InRange a Config.addrMin Config.addrMax

/-- BRZ's test (R191). -/
abbrev AccIsZero (acc : Int) : Prop := acc = 0

/-- BRP's test: positive or zero (R192). -/
abbrev AccIsNonNegative (acc : Int) : Prop := 0 ≤ acc

end Sys2Proof.Machine
end

