-- ==== Sys2Proof/Machine/Ops.lean ====
section
/-! DEFINITION. The named operations: memory, the memory port, fault entry, reset, and the fetch. -/

namespace Sys2Proof.Machine

/-! ### Memory cells -/

/-- What a cell nothing has written reads as (R53). -/
def Memory.unwritten : Int := 0

/-- The word the cell at an address holds (R53, R56). -/
def Memory.peek : Memory → Nat → Int
  | [], _ => Memory.unwritten
  | (k, w) :: m, a => if k = a then w else Memory.peek m a

/-- Put a listed cell in front of a memory, unless it reads as an unlisted one does. -/
def Memory.cons (a : Nat) (v : Int) (m : Memory) : Memory :=
  if v = Memory.unwritten then m else (a, v) :: m

/-- Set the cell at an address (R57), keeping the canonical form. -/
def Memory.poke : Memory → Nat → Int → Memory
  | [], a, v => Memory.cons a v []
  | (k, w) :: m, a, v =>
    if a < k then Memory.cons a v ((k, w) :: m)
    else if a = k then Memory.cons a v m
    else (k, w) :: Memory.poke m a v

/-- The canonical form: addresses strictly rising and below `MEM_SIZE` (R50), no cell that reads as unlisted. -/
abbrev Memory.wf (m : Memory) : Prop :=
  m.Pairwise (fun c d => c.1 < d.1) ∧ ∀ c ∈ m, c.1 < Config.memSize ∧ c.2 ≠ Memory.unwritten

/-- Every listed cell holds a word of [0, 999] (R51). -/
abbrev Memory.wordsFit (m : Memory) : Prop := ∀ c ∈ m, WordFits c.2

/-! ### Fault entry -/

/-- The number of a fault kind (R220; the spec's decision D7). -/
def FaultKind.code : FaultKind → Nat
  | .outOfRangeAddress => 1
  | .invalidOpcode => 2
  | .invalidInput => 3
  | .inputExhausted => 4
  | .accumulatorOverflow => 5
  | .wordOutOfRange => 6

/-- `raise K(pc = p, word = w)`: fault entry (R223, R225). It writes FAULT and PHASE and nothing else. There is no
return from it: only `State.coreReset` leaves FAULTED (R227). -/
def raise (kind : FaultKind) (pc : Int) (word : Option Int) (s : State) : State :=
  { s with
    fault := some { kind := kind, code := kind.code, pc := pc, word := word }
    phase := .faulted }

/-- The address the executing instruction was fetched from, `PC - 1` (R133, R220). -/
def fetchAddress (s : State) : Int := s.pc - 1

/-- A fault of the execute phase or of INP's completion: the record names the fetch address and the word (R220). -/
def raiseExec (kind : FaultKind) (word : Int) (s : State) : State :=
  raise kind (fetchAddress s) (some word) s

/-! ### Reset -/

/-- The queue of answers after a reset: in WAIT_INPUT the request is withdrawn, and the answer it waited for, which
the device had not yet given, is never consumed (R250; log 4, DEDUCED). With an empty queue nothing is dropped: an
answer that arrives after the reset is kept for the next INP (log 22, DESIGN CHOICE). -/
def inputAfterReset (s : State) : List Answer :=
  if s.phase = .waitInput then s.input.tail else s.input

/-- Reset of the core, in any phase (R250): every core register takes its reset value; memory, the output trace and
the port's past are untouched (R252). -/
def State.coreReset (s : State) : State :=
  { s with
    pc := Config.resetPc
    acc := 0
    halted := false
    ir := 0
    ar := 0
    fault := none
    phase := .fetch
    input := inputAfterReset s }

/-! ### The memory port -/

/-- `MemRead(addr, 1)` followed by the rest `k` of a rule, which receives the word read; the rest is not performed
if the access is raised as a fault (R12, R56, R58). -/
def memRead (addr : Int) (s : State) (k : Int → State → State) : State :=
  if AddrValid addr then
    k (s.mem.peek addr.toNat)
      { s with port := s.port ++ [.read addr (s.mem.peek addr.toNat)] }
  else raise .outOfRangeAddress addr none s

/-- `MemWrite(addr, 1, v)` followed by the rest `k` of a rule (R12, R57, R58). The record of the port's own
WordOutOfRange is written "..." in R57: fetch address and current instruction word here (log 8, DESIGN CHOICE;
the core never reaches it, since STA checks first, R180). -/
def memWrite (addr : Int) (v : Int) (s : State) (k : State → State) : State :=
  if AddrValid addr then
    if WordFits v then
      k { s with mem := s.mem.poke addr.toNat v, port := s.port ++ [.write addr v] }
    else raiseExec .wordOutOfRange (100 * s.ir + s.ar) s
  else raise .outOfRangeAddress addr none s

/-! ### Fetch -/

/-- What the fetch writes once it has read `w` from `PC` (R131). -/
def latchWord (w : Int) (s : State) : State :=
  { s with pc := s.pc + 1, ir := opcodeOf w, ar := operandOf w, phase := .execute }

/-- The fetch phase (R131), with its address check first (R132). -/
def fetch (s : State) : State :=
  if AddrValid s.pc then memRead s.pc s latchWord
  else raise .outOfRangeAddress s.pc none s

/-! ### Status outputs -/

/-- The status outputs of the core (R31). -/
structure StatusOutputs where
  halted : Bool
  faulted : Bool
  fault : Option FaultRecord
  waitingInput : Bool
  deriving DecidableEq, Repr

/-- What the environment reads at the status outputs (R31). -/
def State.status (s : State) : StatusOutputs where
  halted := s.halted
  faulted := decide (s.phase = .faulted)
  fault := s.fault
  waitingInput := decide (s.phase = .waitInput)

end Sys2Proof.Machine
end

