-- ==== Sys2Proof/Machine/Operands.lean ====
section
/-! DEFINITION. The operand forms (30_encoding.md R81). There is one addressing mode, direct, and one kind of branch target, absolute. -/

namespace Sys2Proof.Machine

/-- The effective address of ADD, SUB, STA and LDA: the operand itself, with no base, index or offset (R81). -/
def dataAddress (a : Int) : Int := a

/-- The target of BRA, BRZ and BRP: the operand itself (R81). -/
def branchTarget (a : Int) : Int := a

/-- Read the data word an instruction names, then do the rest of its rule (R59, R81). -/
def readOperand (a : Int) (s : State) (k : Int → State → State) : State :=
  memRead (dataAddress a) s k

/-- Store the accumulator at the address an instruction names, then do the rest of its rule (R59, R81). -/
def storeAcc (a : Int) (s : State) (k : State → State) : State :=
  memWrite (dataAddress a) s.acc s k

/-- The end of an execute body: the next phase is FETCH. -/
def finish (s : State) : State := { s with phase := .fetch }

/-- Write ACC and end the execute body. -/
def finishWith (r : Int) (s : State) : State := finish { s with acc := r }

end Sys2Proof.Machine
end

