-- ==== Sys2Proof/Machine/Arith.lean ====
section
/-! DEFINITION. Accumulator arithmetic (42_arith.md R170 to R172). -/

namespace Sys2Proof.Machine

/-- The common end of ADD and SUB: the exact result is written if it lies in ACC's range, and otherwise the
instruction faults AccumulatorOverflow and writes nothing (R172; the spec's decisions D2, D3). -/
def settleAcc (r : Int) (word : Int) (s : State) : State :=
  if AccFits r then finishWith r s else raiseExec .accumulatorOverflow word s

/-- ADD (R170). -/
def execAdd (a : Int) (s : State) : Host.Outcome State Fault Refusal :=
  .next (readOperand a s fun m t => settleAcc (t.acc + m) (100 + a) t)

/-- SUB (R171). -/
def execSub (a : Int) (s : State) : Host.Outcome State Fault Refusal :=
  .next (readOperand a s fun m t => settleAcc (t.acc - m) (200 + a) t)

end Sys2Proof.Machine
end

