-- ==== Sys2Proof/Machine/Branch.lean ====
section
/-! DEFINITION. Branches (44_branch.md R190 to R192). -/

namespace Sys2Proof.Machine

/-- Branch to the operand if a condition holds; otherwise PC keeps the fetch's value (R133). -/
def branchIf (taken : Bool) (a : Int) (s : State) : State :=
  finish (if taken then { s with pc := branchTarget a } else s)

/-- BRA (R190). -/
def execBra (a : Int) (s : State) : Host.Outcome State Fault Refusal :=
  .next (branchIf true a s)

/-- BRZ (R191). -/
def execBrz (a : Int) (s : State) : Host.Outcome State Fault Refusal :=
  .next (branchIf (decide (AccIsZero s.acc)) a s)

/-- BRP (R192). -/
def execBrp (a : Int) (s : State) : Host.Outcome State Fault Refusal :=
  .next (branchIf (decide (AccIsNonNegative s.acc)) a s)

end Sys2Proof.Machine
end

