-- ==== Sys2Proof/Machine/Halt.lean ====
section
/-! DEFINITION. HLT and the invalid opcode (41_halt.md, 40_cycle.md R136). -/

namespace Sys2Proof.Machine

/-- HLT: set HALTED and the phase; the operand is ignored (R160). -/
def execHlt (_a : Int) (s : State) : Host.Outcome State Fault Refusal :=
  .next { s with halted := true, phase := .halted }

/-- Opcode 4: take the fault InvalidOpcode; nothing else is written (R136). -/
def execInvalidOpcode (a : Int) (s : State) : Host.Outcome State Fault Refusal :=
  .next (raiseExec .invalidOpcode (400 + a) s)

end Sys2Proof.Machine
end

