-- ==== Sys2Proof/Machine/Io.lean ====
section
/-! DEFINITION. Input, output and the reserved I/O words (45_io.md R200 to R205). -/

namespace Sys2Proof.Machine

/-- INP, issue: present the input request, which is the phase WAIT_INPUT (R200, R201). -/
def execInp (s : State) : Host.Outcome State Fault Refusal :=
  .next { s with phase := .waitInput }

/-- INP, completion on the device's answer (R202; the spec's decisions D13, D14). -/
def answerInput (answer : Answer) (s : State) : State :=
  match answer with
  | .value v => if InputFits v then finishWith v s else raiseExec .invalidInput 901 s
  | .invalid => raiseExec .invalidInput 901 s
  | .exhausted => raiseExec .inputExhausted 901 s

/-- The phase WAIT_INPUT: the core holds while there is no answer (R138), and otherwise consumes one (R201). -/
def completeInput (s : State) : State :=
  match s.input with
  | [] => s
  | answer :: rest => answerInput answer { s with input := rest }

/-- OUT: one emission of ACC (R203, R204). -/
def execOut (s : State) : Host.Outcome State Fault Refusal :=
  .next (finish { s with out := s.out ++ [s.acc] })

/-- The reserved I/O words: a no-op (R205). -/
def execIoReserved (_a : Int) (s : State) : Host.Outcome State Fault Refusal :=
  .next (finish s)

end Sys2Proof.Machine
end

