-- ==== Sys2Proof/Machine/MemoryOps.lean ====
section
/-! DEFINITION. Store and load (43_memory_ops.md R180 to R182). -/

namespace Sys2Proof.Machine

/-- STA, alias STO: the range check comes before the write (R180; the spec's decision D4). -/
def execSta (a : Int) (s : State) : Host.Outcome State Fault Refusal :=
  .next (if WordFits s.acc then storeAcc a s finish else raiseExec .wordOutOfRange (300 + a) s)

/-- LDA (R181). -/
def execLda (a : Int) (s : State) : Host.Outcome State Fault Refusal :=
  .next (readOperand a s finishWith)

end Sys2Proof.Machine
end

