-- ==== Sys2Proof/Machine/Dispatch.lean ====
section
/-! DEFINITION. The execute phase's dispatch: one arm per instruction (40_cycle.md R134). -/

namespace Sys2Proof.Machine

def exec (i : Instr) (s : State) : Host.Outcome State Fault Refusal :=
  match i with
  | .hlt a => Sys2Proof.Machine.execHlt a s
  | .add a => Sys2Proof.Machine.execAdd a s
  | .sub a => Sys2Proof.Machine.execSub a s
  | .sta a => Sys2Proof.Machine.execSta a s
  | .invalidOpcode a => Sys2Proof.Machine.execInvalidOpcode a s
  | .lda a => Sys2Proof.Machine.execLda a s
  | .bra a => Sys2Proof.Machine.execBra a s
  | .brz a => Sys2Proof.Machine.execBrz a s
  | .brp a => Sys2Proof.Machine.execBrp a s
  | .inp => Sys2Proof.Machine.execInp s
  | .out => Sys2Proof.Machine.execOut s
  | .ioReserved a => Sys2Proof.Machine.execIoReserved a s

end Sys2Proof.Machine
end

