-- ==== Sys2Proof/Machine/Cycle.lean ====
section
/-! DEFINITION. The fetch-execute state machine (40_cycle.md R130 to R142): its transitions one by one, and the cycle that fuses a fetch with its execute. -/

namespace Sys2Proof.Machine

/-- The execute phase: the rule that `decode(IR, AR)` selects (R134); an opcode that is no digit faults InvalidOpcode
(R85, R136, D34). -/
def execute (s : State) : Host.Outcome State Fault Refusal :=
  match decodeFields s.ir s.ar with
  | .ok i => exec i s
  | .error _ => .next (raiseExec .invalidOpcode (100 * s.ir + s.ar) s)

/-- One transition of the state machine, row for row as R130 lists them. In HALTED and FAULTED, and in WAIT_INPUT with
no answer, nothing changes (R137, R138; log 6). -/
def phaseStep (s : State) : Host.Outcome State Fault Refusal :=
  match s.phase with
  | .fetch => .next (fetch s)
  | .execute => execute s
  | .waitInput => .next (completeInput s)
  | .halted => .next s
  | .faulted => .next s

/-- One cycle as one step: a fetch and its execute together, which R141 allows; every other phase takes its one
transition, so INP's WAIT_INPUT stays a step of its own (log 5). -/
def cycle (s : State) : Host.Outcome State Fault Refusal :=
  if s.phase = .fetch ∧ (fetch s).phase = .execute then execute (fetch s) else phaseStep s

/-- Place a word where the next step fetches it: in the cell at PC, with the core ready to fetch (R131). The host's
load, not a transaction of the core (R253; log 11, log 19). -/
def placeFetchWord (w : Int) (s : State) : State :=
  { s with
    mem := s.mem.poke s.pc.toNat w
    phase := .fetch
    halted := false
    fault := none }

end Sys2Proof.Machine
end

