-- ==== Sys2Proof/Machine/Step.lean ====
section
/-! DEFINITION. One step of the machine, and where the host places the word the next step runs. -/

namespace Sys2Proof.Machine

/-- One step: one cycle, or the one transition of a phase other than FETCH (40_cycle.md R130, R141). -/
def step (s : State) : Host.Outcome State Fault Refusal := cycle s

/-- `s` with the word `w` where `step` fetches next (log 10, log 11, log 19). -/
def State.withFetchWord (s : State) (_nbits w : Nat) : State := placeFetchWord (w : Int) s

end Sys2Proof.Machine
end

