-- ==== Sys2Proof/Machine/Text.lean ====
section
/-! DEFINITION. Text as the tools and the input device read it: lines, tokens and decimal integers (30_encoding.md R100, R102; 70_reset_and_hazards.md R256, R257; 45_io.md R201). -/

namespace Sys2Proof.Machine

/-- A text: its characters in order (R100). -/
abbrev Text := List Char

/-- A field of a line: characters with no white space among them (R102). -/
abbrev Token := List Char

/-- White space between fields: space, tab, carriage return and line feed (R100; log 13, DESIGN CHOICE). -/
def isSpace (c : Char) : Bool := c = ' ' || c = '\t' || c = '\r' || c = '\n'

/-- The lines of a text, split at each line feed (R100). -/
def splitLines : Text → List Text
  | [] => [[]]
  | c :: cs =>
    match splitLines cs with
    | [] => [[c]]
    | l :: ls => if c = '\n' then [] :: l :: ls else (c :: l) :: ls

/-- Put a character in front of the first token when the text went on without a space, or start a token. -/
def consToken (c : Char) (joined : Bool) (ts : List Token) : List Token :=
  match joined, ts with
  | true, t :: ts => (c :: t) :: ts
  | _, ts => [c] :: ts

/-- The text begins inside a token. -/
def startsToken : Text → Bool
  | [] => false
  | c :: _ => !isSpace c

/-- The fields of a text: its longest runs of characters that are no white space (R100, R102). -/
def tokens : Text → List Token
  | [] => []
  | c :: cs => if isSpace c then tokens cs else consToken c (startsToken cs) (tokens cs)

/-- The value of a decimal digit. The digits are the ten ASCII characters 0 to 9: the spec says only "decimal-digit" of a
UTF-8 source (R100, R106), so that the digits of other scripts are none is the model's choice (log 20, DESIGN CHOICE). -/
def digitValue (c : Char) : Option Nat :=
  if 48 ≤ c.toNat ∧ c.toNat ≤ 57 then some (c.toNat - 48) else none

/-- Go on reading a decimal number, `acc` being the value of the digits so far. -/
def readDigits : Nat → List Char → Option Nat
  | acc, [] => some acc
  | acc, c :: cs =>
    match digitValue c with
    | none => none
    | some d => readDigits (10 * acc + d) cs

/-- A token that is decimal-digit, and the number it spells (R106; which characters are digits: log 20, DESIGN CHOICE). -/
def parseNat : Token → Option Nat
  | [] => none
  | c :: cs => readDigits 0 (c :: cs)

/-- A token that is a decimal integer: digits, with a minus sign before them or none (R201, R257; log 12, log 15,
log 20, DESIGN CHOICE). -/
def parseInt : Token → Option Int
  | '-' :: cs => (parseNat cs).map fun n => -(n : Int)
  | t => (parseNat t).map fun n => (n : Int)

/-- The character of a digit. -/
def digitChar (n : Nat) : Char := Char.ofNat (48 + n % 10)

/-- Two decimal digits. -/
def twoDigits (n : Nat) : Text := [digitChar (n / 10), digitChar n]

/-- Three decimal digits, `abc` for `100*a + 10*b + c` (R10). -/
def threeDigits (n : Nat) : Text := digitChar (n / 100) :: twoDigits n

end Sys2Proof.Machine
end

