-- ==== Sys2Proof/Machine/Assembler.lean ====
section
/-! DEFINITION. The two-pass assembler and the disassembly convention (30_encoding.md R100 to R115): the words a source text stands for. -/

namespace Sys2Proof.Machine

/-- The mnemonic set of the assembler (R101). -/
inductive Mnemonic where
  | HLT | ADD | SUB | STA | STO | LDA | BRA | BRZ | BRP | INP | OUT | DAT
  deriving DecidableEq, Repr

/-- The spelling of a mnemonic, in upper case (R101). -/
def Mnemonic.spelling : Mnemonic → Token
  | .HLT => ['H', 'L', 'T']
  | .ADD => ['A', 'D', 'D']
  | .SUB => ['S', 'U', 'B']
  | .STA => ['S', 'T', 'A']
  | .STO => ['S', 'T', 'O']
  | .LDA => ['L', 'D', 'A']
  | .BRA => ['B', 'R', 'A']
  | .BRZ => ['B', 'R', 'Z']
  | .BRP => ['B', 'R', 'P']
  | .INP => ['I', 'N', 'P']
  | .OUT => ['O', 'U', 'T']
  | .DAT => ['D', 'A', 'T']

/-- All mnemonics (R101). -/
def Mnemonic.all : List Mnemonic :=
  [.HLT, .ADD, .SUB, .STA, .STO, .LDA, .BRA, .BRZ, .BRP, .INP, .OUT, .DAT]

/-- A token in upper case (R100, R101). Letters outside ASCII stay as they are (log 13, DESIGN CHOICE). -/
def upperCase (t : Token) : Token := t.map Char.toUpper

/-- The mnemonic a token is, in any case (R101; R107). -/
def mnemonicOf (t : Token) : Option Mnemonic :=
  Mnemonic.all.find? fun m => decide (m.spelling = upperCase t)

/-- What a mnemonic emits (R108 to R110). -/
inductive Emission where
  /-- an opcode digit, with one operand (R108) -/
  | addressed (digit : Int)
  /-- a preset code, any operand ignored (R109) -/
  | fixed (code : Int)
  /-- a data word (R110) -/
  | data
  deriving DecidableEq, Repr

/-- The emission of each mnemonic: the digits of R108, the codes of R109, DAT of R110. -/
def Mnemonic.emission : Mnemonic → Emission
  | .HLT => .fixed 0
  | .ADD => .addressed 1
  | .SUB => .addressed 2
  | .STA => .addressed 3
  | .STO => .addressed 3
  | .LDA => .addressed 5
  | .BRA => .addressed 6
  | .BRZ => .addressed 7
  | .BRP => .addressed 8
  | .INP => .fixed 901
  | .OUT => .fixed 902
  | .DAT => .data

/-- The assembler's errors (R113, R221). -/
inductive AsmError where
  | programTooLarge
  | malformedLine
  | duplicateLabel
  | invalidToken
  | unknownLabel
  deriving DecidableEq, Repr

/-- A failed assembly: the error, and the address of the line it is found on, none for a program too large
(R113, R220; log 13, DESIGN CHOICE). -/
structure AsmFailure where
  error : AsmError
  line : Option Nat
  deriving DecidableEq, Repr

/-- The labels recorded so far, with their addresses (R104). -/
abbrev Labels := List (Token × Nat)

/-- The address a label is bound to (R106). -/
def Labels.find (ls : Labels) (t : Token) : Option Nat :=
  match ls with
  | [] => none
  | (x, n) :: rest => if x = t then some n else Labels.find rest t

/-- The fields of the lines that have one, in order; a line's address is its place in this list (R102, R103). -/
def sourceLines (source : Text) : List (List Token) :=
  ((splitLines source).map tokens).filter fun l => !l.isEmpty

/-- The label a line defines: its first token, if that is no mnemonic (R104). -/
def definedLabel : List Token → Option Token
  | [] => none
  | t :: _ => if (mnemonicOf t).isSome then none else some t

/-- A line without its label (R105). -/
def withoutLabel : List Token → List Token
  | [] => []
  | t :: ts => if (mnemonicOf t).isSome then t :: ts else ts

/-- Pass 1, from the line at address `n` on: collect the labels (R102, R104). -/
def collectLabels : Nat → Labels → List (List Token) → Except AsmFailure Labels
  | _, known, [] => .ok known
  | n, known, l :: ls =>
    if 3 < l.length then .error ⟨.malformedLine, some n⟩
    else
      match definedLabel l with
      | none => collectLabels (n + 1) known ls
      | some x =>
        if (known.find x).isSome then .error ⟨.duplicateLabel, some n⟩
        else collectLabels (n + 1) ((x, n) :: known) ls

/-- The value of an operand token: a known label first, then a literal; a mnemonic is InvalidToken, and anything else an
unknown label (R106). -/
def operandValue (known : Labels) (t : Token) : Except AsmError Int :=
  match known.find t with
  | some n => .ok n
  | none =>
    match parseNat t with
    | some n => .ok n
    | none => if (mnemonicOf t).isSome then .error .invalidToken else .error .unknownLabel

/-- The word a mnemonic emits with an operand value or none (R108 to R110). -/
def emitWord (m : Mnemonic) (operand : Option Int) : Except AsmError Int :=
  match m.emission, operand with
  | .addressed _, none => .error .malformedLine
  | .addressed d, some v => if OperandOk v then .ok (100 * d + v) else .error .invalidToken
  | .fixed code, _ => .ok code
  | .data, none => .ok 0
  | .data, some v => if InRange v 0 999 then .ok v else .error .invalidToken

/-- The word of a line whose label has been removed: a mnemonic and at most one operand (R105). -/
def assembleFields (known : Labels) : List Token → Except AsmError Int
  | [] => .error .malformedLine
  | t :: operands =>
    match mnemonicOf t with
    | none => .error .invalidToken
    | some m =>
      match operands with
      | [] => emitWord m none
      | [o] =>
        match operandValue known o with
        | .ok v => emitWord m (some v)
        | .error e => .error e
      | _ :: _ :: _ => .error .malformedLine

/-- Pass 2, from the line at address `n` on: one word a line (R105, R112). -/
def emitLines (known : Labels) : Nat → List (List Token) → Except AsmFailure (List Int)
  | _, [] => .ok []
  | n, l :: ls =>
    match assembleFields known (withoutLabel l) with
    | .error e => .error ⟨e, some n⟩
    | .ok w =>
      match emitLines known (n + 1) ls with
      | .error f => .error f
      | .ok ws => .ok (w :: ws)

/-- The image of a source text, or the first error in the order of R113. -/
def assemble (source : Text) : Except AsmFailure (List Int) :=
  if 100 < (sourceLines source).length then .error ⟨.programTooLarge, none⟩
  else
    match collectLabels 0 [] (sourceLines source) with
    | .error f => .error f
    | .ok known => emitLines known 0 (sourceLines source)

/-- The assembled format: decimal integers separated by white space (R112). Which white space is left open: here one line
feed stands after every word, the last one too (log 23, DESIGN CHOICE), and a word has three digits (log 14, DESIGN
CHOICE). -/
def renderImage : List Int → Text
  | [] => []
  | w :: ws => threeDigits w.toNat ++ '\n' :: renderImage ws

/-- A mnemonic and a two-digit operand (R115), with the single space of R100 between them. -/
def disassembleAddressed (m : Mnemonic) (a : Int) : Text :=
  m.spelling ++ ' ' :: twoDigits a.toNat

/-- A data word (three digits: log 14, DESIGN CHOICE). -/
def disassembleData (w : Int) : Text := Mnemonic.DAT.spelling ++ ' ' :: threeDigits w.toNat

/-- The disassembly of a word (R115): one line's text, without the line's end (log 14, DESIGN CHOICE). -/
def disassemble (w : Int) : Text :=
  match decode w with
  | .ok (.hlt a) => if a = 0 then Mnemonic.HLT.spelling else disassembleData w
  | .ok (.add a) => disassembleAddressed .ADD a
  | .ok (.sub a) => disassembleAddressed .SUB a
  | .ok (.sta a) => disassembleAddressed .STA a
  | .ok (.invalidOpcode _) => disassembleData w
  | .ok (.lda a) => disassembleAddressed .LDA a
  | .ok (.bra a) => disassembleAddressed .BRA a
  | .ok (.brz a) => disassembleAddressed .BRZ a
  | .ok (.brp a) => disassembleAddressed .BRP a
  | .ok .inp => Mnemonic.INP.spelling
  | .ok .out => Mnemonic.OUT.spelling
  | .ok (.ioReserved _) => disassembleData w
  | .error _ => disassembleData w

end Sys2Proof.Machine
end

