-- ==== Sys2Proof/Machine/Loader.lean ====
section
/-! DEFINITION. The loader and the start of a run (70_reset_and_hazards.md R253 to R257). -/

namespace Sys2Proof.Machine

/-- Why the loader refuses an image (R221, R256, R257). The name of the error is all a refusal reports: R220 quotes
"enough context (offending line number or program counter)" for every error, and R256 and R257 give a loader's
refusal none (log 21, DESIGN CHOICE). -/
inductive LoadError where
  /-- more than 100 words (R256) -/
  | programTooLarge
  /-- a token that is not a decimal integer, or an integer outside [0, 999] (R257) -/
  | invalidToken
  deriving DecidableEq, Repr

/-- Write words at sequential addresses, the first at `a` (R255). -/
def fillFrom : Nat → List Int → Memory → Memory
  | _, [], m => m
  | a, w :: ws, m => fillFrom (a + 1) ws (m.poke a w)

/-- The memory a run starts with: the image from address 0 upward in a memory of zeros (R53, R255). When an image is
both too long and malformed, ProgramTooLarge is named (log 12, DESIGN CHOICE). -/
def loadImage (image : List Int) : Except LoadError Memory :=
  if Config.memSize < image.length then .error .programTooLarge
  else if ∀ w ∈ image, WordFits w then .ok (fillFrom 0 image [])
  else .error .invalidToken

/-- The words of a list of tokens, if each is a decimal integer. -/
def parseWords : List Token → Option (List Int)
  | [] => some []
  | t :: ts =>
    match parseInt t, parseWords ts with
    | some w, some ws => some (w :: ws)
    | _, _ => none

/-- The words of a numeric source, words delimited by white space or lines (R256, R257). -/
def parseImage (source : Text) : Except LoadError (List Int) :=
  if Config.memSize < (tokens source).length then .error .programTooLarge
  else
    match parseWords (tokens source) with
    | some ws => .ok ws
    | none => .error .invalidToken

/-- The start of a run: the memory is created, the loader writes the image, and the core is reset (R253). The answers
are those the input device will give. A refused image starts no run (R256, R257). -/
def boot (image : List Int) (answers : List Answer) : Except LoadError State :=
  match loadImage image with
  | .ok m => .ok { State.reset with mem := m, input := answers }
  | .error e => .error e

/-- The start of a run from a numeric source text (R256). -/
def bootText (source : Text) (answers : List Answer) : Except LoadError State :=
  match parseImage source with
  | .ok image => boot image answers
  | .error e => .error e

end Sys2Proof.Machine
end

