-- ==== Sys2Proof/Machine/Environment.lean ====
section
/-! DEFINITION. What the world outside the core does to it (00_scope.md R15): it lets the core step, resets it, and answers its input requests. -/

namespace Sys2Proof.Machine

/-- An event at the core's boundary. No other exists: there is no interrupt (R241) and no other bus agent (R66). -/
inductive Event where
  /-- the core takes a step (R130) -/
  | tick
  /-- the core is reset (R250) -/
  | reset
  /-- the input device supplies a further answer (R201) -/
  | deliver (answer : Answer)
  deriving DecidableEq, Repr

/-- The state after an event. An answer carries no mark of the request it belongs to, so that one delivered after a
reset withdrew a request is queued as any other and goes to the next INP (R201, R250; log 22, DESIGN CHOICE). -/
def react (e : Event) (s : State) : Host.Outcome State Fault Refusal :=
  match e with
  | .tick => step s
  | .reset => .next s.coreReset
  | .deliver answer => .next { s with input := s.input ++ [answer] }

/-- The answer the input device gives for one line: the decimal integer it parses from it, or Invalid (R201; white space
around the integer is skipped: log 15, DESIGN CHOICE). -/
def Answer.ofLine (line : Text) : Answer :=
  match tokens line with
  | [t] =>
    match parseInt t with
    | some v => .value v
    | none => .invalid
  | _ => .invalid

/-- The end of a run: HALTED or FAULTED, and only then; a core that waits for input is not at the end (R139). -/
def runEnded (s : State) : Bool := decide (s.phase = .halted ∨ s.phase = .faulted)

/-- A normal halt, as against a fatal error (R139). -/
def normalHalt (s : State) : Bool := decide (s.phase = .halted)

end Sys2Proof.Machine
end

