-- ==== Sys2Proof/Safety.lean ====
section
/-! DEFINITION. What a safe run is: the invariant of 10_state.md R35, the reachable states, and the runs that statements speak of. -/

namespace Sys2Proof.Machine

/-- A transaction the port may carry: an address of memory, a word of data (R58). -/
def Transaction.legal : Transaction → Prop
  | .read a w => AddrValid a ∧ WordFits w
  | .write a w => AddrValid a ∧ WordFits w

/-- A fault record as R220 lists them: the code of its kind; for OutOfRangeAddress the program counter 100 and no word,
for every other kind an address of memory and a word. -/
def FaultRecord.legal (r : FaultRecord) : Prop :=
  r.code = r.kind.code ∧
  if r.kind = .outOfRangeAddress then r.pc = 100 ∧ r.word = none
  else AddrValid r.pc ∧ ∃ w, r.word = some w ∧ WordFits w

/-- The invariant of the reachable states (R35), with what R133, R204, R58 and R220 add to it. -/
structure Inv (s : State) : Prop where
  pc : InRange s.pc 0 100
  /-- while an instruction is executed or waits, PC is its address plus one (R133) -/
  pcAhead : s.phase = .execute ∨ s.phase = .waitInput → 1 ≤ s.pc
  ir : InRange s.ir 0 9
  ar : OperandOk s.ar
  acc : AccFits s.acc
  /-- memory keeps its canonical form (R50) -/
  memForm : Memory.wf s.mem
  /-- every cell holds a word (R51) -/
  memWords : Memory.wordsFit s.mem
  halted : s.halted = true ↔ s.phase = .halted
  fault : s.fault = none ↔ s.phase ≠ .faulted
  faultRecord : ∀ r, s.fault = some r → r.legal
  /-- only INP waits (R200) -/
  waiting : s.phase = .waitInput → s.ir = 9 ∧ s.ar = 1
  /-- every emission is a value of ACC (R204) -/
  out : ∀ v ∈ s.out, AccFits v
  /-- every transaction is one the port carries (R58) -/
  port : ∀ t ∈ s.port, t.legal

/-- The states of the machine's life: the start of a run with any image the loader accepts (R253), and what any event
makes of such a state. -/
inductive Reachable : State → Prop where
  | boot {image : List Int} {answers : List Answer} {s : State} :
      boot image answers = .ok s → Reachable s
  | react {e : Event} {s t : State} : Reachable s → react e s = .next t → Reachable t

/-- The machine whose step is one transition of R130 rather than one cycle (R141). -/
def phaseCore : Host.Core where
  State := State
  Fault := Fault
  Refusal := Refusal
  step := phaseStep
  reset := State.reset

/-- The core is about to fetch the word `w` (R131): the phase is FETCH and the cell PC names holds `w`. -/
def AtFetch (s : State) (w : Int) : Prop :=
  s.phase = .fetch ∧ AddrValid s.pc ∧ s.mem.peek s.pc.toNat = w

/-- The state right after the fetch of `w`, written out (R131, R59). -/
def afterFetch (w : Int) (s : State) : State :=
  { s with
    pc := s.pc + 1
    ir := w / 100
    ar := w % 100
    phase := .execute
    port := s.port ++ [.read s.pc w] }

/-- The state in the phase FAULTED with a given record and everything else kept (R223). -/
def faultedWith (kind : FaultKind) (code : Nat) (pc : Int) (word : Option Int) (s : State) : State :=
  { s with fault := some ⟨kind, code, pc, word⟩, phase := .faulted }

/-- The phase the EXECUTE rows of R130 lead to. The clause that AR names a cell holds of every AR the fetch loads (R24);
where it does not hold, the access faults at the port (D33), and so does an opcode that is no digit (D34; log 9). -/
def phaseAfterExecute (s : State) : Phase :=
  if s.ir = 0 then .halted
  else if s.ir = 1 then
    if InRange s.ar 0 99 ∧ InRange (s.acc + s.mem.peek s.ar.toNat) (-999) 999 then .fetch else .faulted
  else if s.ir = 2 then
    if InRange s.ar 0 99 ∧ InRange (s.acc - s.mem.peek s.ar.toNat) (-999) 999 then .fetch else .faulted
  else if s.ir = 3 then
    if InRange s.ar 0 99 ∧ InRange s.acc 0 999 then .fetch else .faulted
  else if s.ir = 5 then if InRange s.ar 0 99 then .fetch else .faulted
  else if s.ir = 6 ∨ s.ir = 7 ∨ s.ir = 8 then .fetch
  else if s.ir = 9 then if s.ar = 1 then .waitInput else .fetch
  else .faulted

/-- The phase the WAIT_INPUT rows of R130 lead to, with what R202 does on each answer. -/
def phaseAfterWait (s : State) : Phase :=
  match s.input with
  | [] => .waitInput
  | .value v :: _ => if InRange v (-999) 999 then .fetch else .faulted
  | .invalid :: _ => .faulted
  | .exhausted :: _ => .faulted

end Sys2Proof.Machine
end

