-- ==== Sys2Proof/Certificates/Slice0/Obligations.lean ====
section
/-! DEFINITION. The statements for the provers. In each, `exec i s` is the execute phase of `i`, and `step s` a whole cycle; an equation between states says what changes and, by the record update, that nothing else does. -/

open Sys2Proof Sys2Proof.Machine

/-! ### Encoding (30_encoding.md) -/

/-- The decode vectors of 95_test_vectors.md section 2.1, word by word. -/
def Obligations.WrittenOutWordsDecode : Prop :=
  decode 0 = .ok (.hlt 0) ∧ decode 99 = .ok (.hlt 99) ∧ decode 100 = .ok (.add 0) ∧
  decode 165 = .ok (.add 65) ∧ decode 199 = .ok (.add 99) ∧ decode 250 = .ok (.sub 50) ∧
  decode 307 = .ok (.sta 7) ∧ decode 399 = .ok (.sta 99) ∧ decode 400 = .ok (.invalidOpcode 0) ∧
  decode 499 = .ok (.invalidOpcode 99) ∧ decode 500 = .ok (.lda 0) ∧ decode 565 = .ok (.lda 65) ∧
  decode 607 = .ok (.bra 7) ∧ decode 699 = .ok (.bra 99) ∧ decode 700 = .ok (.brz 0) ∧
  decode 899 = .ok (.brp 99) ∧ decode 900 = .ok (.ioReserved 0) ∧ decode 901 = .ok .inp ∧
  decode 902 = .ok .out ∧ decode 903 = .ok (.ioReserved 3) ∧ decode 999 = .ok (.ioReserved 99)

/-- Decoding the word of a well-formed instruction gives the instruction back, every operand included. -/
def Obligations.DecodeUndoesEncode : Prop :=
  ∀ i : Instr, i.wellFormed = true → decode (encode i) = .ok i

/-- Every word of [0, 999] decodes, to a well-formed instruction whose word it is: no two words share an instruction
and no word is left out (R83, "Every `(IR, AR)` ... has exactly one case"). -/
def Obligations.EncodeUndoesDecode : Prop :=
  ∀ w : Int, InRange w 0 999 → ∃ i, decode w = .ok i ∧ i.wellFormed = true ∧ encode i = w

/-- Every word of [0, 999] is in exactly one row of the opcode map, and that row is the decoded instruction's
(R84). -/
def Obligations.EveryWordIsInExactlyOneRow : Prop :=
  ∀ w : Int, InRange w 0 999 →
    ∃ r ∈ opcodeTable, r.covers w = true ∧ (∀ q ∈ opcodeTable, q.covers w = true → q = r) ∧
      ∃ i, decode w = .ok i ∧ i.mnemonic = r.mnemonic

/-- The one format (R80): the fetch splits the word into a digit and a two-digit operand, which make the word up. -/
def Obligations.FetchSplitsTheWord : Prop :=
  ∀ (w : Int) (s : State), InRange w 0 999 → AtFetch s w →
    (fetch s).ir = w / 100 ∧ (fetch s).ar = w % 100 ∧
    InRange (fetch s).ir 0 9 ∧ InRange (fetch s).ar 0 99 ∧
    w = (fetch s).ir * 100 + (fetch s).ar

/-- A word outside [0, 999] is no instruction, and executing its opcode faults InvalidOpcode with the whole word in
the record (the spec's decision D34; no reachable state holds such a word). -/
def Obligations.WordsOutOfRangeFaultInvalidOpcode : Prop :=
  ∀ (w : Int) (s : State), ¬ InRange w 0 999 → AtFetch s w →
    decode w = .error (.opcodeOutOfRange (w / 100)) ∧
    step s = .next (faultedWith .invalidOpcode 2 s.pc (some w) (afterFetch w s))

/-! ### Memory (20_memory.md) -/

/-- The read-after-write law through the port (R54), for a memory in the form every memory operation keeps:
`MemWrite(a, 1, w)` and then `MemRead(a, 1)` gives `w`, and a write changes no other address. -/
def Obligations.ReadAfterWriteReturnsTheWord : Prop :=
  ∀ (s : State) (a : Int) (w : Int), Memory.wf s.mem → InRange a 0 99 → InRange w 0 999 →
    (∀ k : Int → State → State, memWrite a w s (fun t => memRead a t k) =
      memWrite a w s (fun t => k w { t with port := t.port ++ [.read a w] })) ∧
    (∃ t, memWrite a w s id = t ∧ t.mem.peek a.toNat = w ∧
      ∀ b : Nat, b ≠ a.toNat → t.mem.peek b = s.mem.peek b)

/-- An access outside [0, 99] raises OutOfRangeAddress at the port, with the address as the record's pc, and nothing
else happens (R55 with the spec's decision D33: the core itself never makes such an access). -/
def Obligations.AccessOutsideMemoryFaults : Prop :=
  ∀ (s : State) (a : Int) (w : Int), ¬ InRange a 0 99 →
    (∀ k, memRead a s k = faultedWith .outOfRangeAddress 1 a none s) ∧
    (∀ k, memWrite a w s k = faultedWith .outOfRangeAddress 1 a none s)

/-- Two memories in canonical form that read alike at every address are the same data. -/
def Obligations.EqualReadsMeanEqualMemories : Prop :=
  ∀ m n : Memory, Memory.wf m → Memory.wf n → (∀ a, m.peek a = n.peek a) → m = n

/-! ### The state machine (40_cycle.md) -/

/-- The fetch (R131): a halted core does nothing; otherwise the word at PC is read, PC is incremented and the word
is split into IR and AR. -/
def Obligations.FetchReadsIncrementsAndSplits : Prop :=
  (∀ s : State, s.phase = .halted → phaseStep s = .next s) ∧
  (∀ (s : State) (w : Int), AtFetch s w → phaseStep s = .next
    { s with pc := s.pc + 1, ir := w / 100, ar := w % 100, phase := .execute,
             port := s.port ++ [.read s.pc w] }) ∧
  (∀ s : State, s.phase = .fetch → ¬ InRange s.pc 0 99 → phaseStep s = .next
    { s with fault := some ⟨.outOfRangeAddress, 1, s.pc, none⟩, phase := .faulted })

/-- A fetch outside [0, 99] faults OutOfRangeAddress with PC in the record, no word and no transaction (R132, the
spec's decision D5). -/
def Obligations.FetchPastTheEndFaults : Prop :=
  ∀ s : State, s.phase = .fetch → ¬ InRange s.pc 0 99 →
    step s = .next (faultedWith .outOfRangeAddress 1 s.pc none s)

/-- A step in FETCH runs the instruction the word at PC decodes to, on the state the fetch leaves; a step in EXECUTE
runs the one IR and AR decode to. -/
def Obligations.StepRunsTheDecodedInstruction : Prop :=
  (∀ (s : State) (w : Int) (i : Instr), AtFetch s w → decode w = .ok i →
    step s = exec i { s with pc := s.pc + 1, ir := w / 100, ar := w % 100, phase := .execute,
                             port := s.port ++ [.read s.pc w] }) ∧
  (∀ (s : State) (i : Instr), s.phase = .execute → decodeFields s.ir s.ar = .ok i → step s = exec i s)

/-- Runs of cycles and runs of the single transitions of R130 are the same runs, seen at every state that is not
between a fetch and its execute (R141). -/
def Obligations.CyclesAndPhaseTransitionsAgree : Prop :=
  (∀ (n : Nat) (s t : State), Host.Core.run Sys2Proof.core n s = .next t →
    ∃ m, n ≤ m ∧ m ≤ 2 * n ∧ Host.Core.run phaseCore m s = .next t) ∧
  (∀ (m : Nat) (s t : State), s.phase ≠ .execute → t.phase ≠ .execute →
    Host.Core.run phaseCore m s = .next t →
    ∃ n, n ≤ m ∧ Host.Core.run Sys2Proof.core n s = .next t)

/-- R130's transition table, every row: a single transition goes to the phase its row names, and a step, which may take
the FETCH row and an EXECUTE row together (R141), to the phase the last of them names. Where the table's action is
"none" (HALTED, FAULTED, and WAIT_INPUT with no answer) the same state is answered (log 6, DEDUCED). An AR outside
[0, 99] or an IR that is no digit, which no fetch of a word loads, faults (the spec's decisions D33, D34; log 9). -/
def Obligations.StepFollowsThePhaseTable : Prop :=
  (∀ s t : State, phaseStep s = .next t →
    (s.phase = .fetch → InRange s.pc 0 99 → t.phase = .execute) ∧
    (s.phase = .fetch → ¬ InRange s.pc 0 99 → t.phase = .faulted) ∧
    (s.phase = .execute → t.phase = phaseAfterExecute s) ∧
    (s.phase = .waitInput → t.phase = phaseAfterWait s) ∧
    (s.phase = .waitInput → s.input = [] → t = s) ∧
    (s.phase = .halted ∨ s.phase = .faulted → t = s)) ∧
  (∀ s t : State, step s = .next t →
    (s.phase = .fetch → InRange s.pc 0 99 →
      t.phase = phaseAfterExecute (afterFetch (s.mem.peek s.pc.toNat) s)) ∧
    (s.phase = .fetch → ¬ InRange s.pc 0 99 → t.phase = .faulted) ∧
    (s.phase = .execute → t.phase = phaseAfterExecute s) ∧
    (s.phase = .waitInput → t.phase = phaseAfterWait s) ∧
    (s.phase = .waitInput → t.phase = .waitInput → t = s ∧ s.input = []) ∧
    (s.phase = .halted ∨ s.phase = .faulted → t = s) ∧
    t.phase ≠ .execute ∧
    (s.phase = .fetch → t.phase = .halted → t.ir = 0) ∧
    (s.phase = .fetch → t.phase = .waitInput → t.ir = 9 ∧ t.ar = 1))

/-- However many steps a halted or faulted core is given, and whatever the input device supplies, no register, no
word of memory, no emission and no transaction changes: only reset leaves these phases (R137, R227, the spec's
decision D19). -/
def Obligations.OnlyResetLeavesHaltedAndFaulted : Prop :=
  (∀ (n : Nat) (s : State), (s.phase = .halted ∨ s.phase = .faulted) →
    Host.Core.run Sys2Proof.core n s = .next s) ∧
  (∀ (e : Event) (s t : State), (s.phase = .halted ∨ s.phase = .faulted) → e ≠ .reset →
    react e s = .next t → t = { s with input := t.input })

/-- No state stops the model: whatever the state, a step and every event answer a next state. That a fault is a next
state and no stop of the model is log 18 (DESIGN CHOICE), and that a core in HALTED or FAULTED, which R137 gives no
step, answers the same state is log 6 (DEDUCED). -/
def Obligations.EveryStateHasANextState : Prop :=
  (∀ s : State, ∃ t, step s = .next t) ∧ ∀ (e : Event) (s : State), ∃ t, react e s = .next t

/-! ### HLT and the invalid opcode (41_halt.md, 40_cycle.md) -/

/-- HLT (R160): every operand halts alike; HALTED is set; PC keeps the fetch's value, at address 99 too; no further
cycle follows; the assembler's word is 000. -/
def Obligations.HltHalts : Prop :=
  (∀ a, InRange a 0 99 → decode a = .ok (.hlt a)) ∧
  (∀ (a : Int) (s : State), exec (.hlt a) s = .next { s with halted := true, phase := .halted }) ∧
  (∀ (a : Int) (s : State), InRange a 0 99 → AtFetch s a →
    ∃ t, step s = .next t ∧
      t = { s with pc := s.pc + 1, ir := 0, ar := a, halted := true, phase := .halted,
                   port := s.port ++ [.read s.pc a] } ∧
      ∀ n, Host.Core.run Sys2Proof.core n t = .next t) ∧
  emitWord .HLT none = .ok 0

/-- Opcode 4 (R136, the spec's decision D6): the fault InvalidOpcode, with the fetch address and the word; PC keeps
the incremented value. -/
def Obligations.InvalidOpcodeFaults : Prop :=
  (∀ a, InRange a 0 99 → decode (400 + a) = .ok (.invalidOpcode a)) ∧
  (∀ (a : Int) (s : State), exec (.invalidOpcode a) s =
    .next { s with fault := some ⟨.invalidOpcode, 2, s.pc - 1, some (400 + a)⟩, phase := .faulted }) ∧
  (∀ (a : Int) (s : State), InRange a 0 99 → AtFetch s (400 + a) → step s = .next
    { s with pc := s.pc + 1, ir := 4, ar := a, port := s.port ++ [.read s.pc (400 + a)],
             fault := some ⟨.invalidOpcode, 2, s.pc, some (400 + a)⟩, phase := .faulted })

/-! ### Arithmetic (42_arith.md) -/

/-- ADD (R170; the range and the fault are the spec's decisions D2, D3): the exact sum in ACC if it lies in
[-999, 999]; otherwise AccumulatorOverflow with ACC unchanged. -/
def Obligations.AddIsExactOrFaults : Prop :=
  (∀ a, InRange a 0 99 → decode (100 + a) = .ok (.add a)) ∧
  (∀ (a : Int) (s : State), InRange a 0 99 → InRange (s.acc + s.mem.peek a.toNat) (-999) 999 →
    exec (.add a) s = .next
      { s with acc := s.acc + s.mem.peek a.toNat, phase := .fetch,
               port := s.port ++ [.read a (s.mem.peek a.toNat)] }) ∧
  (∀ (a : Int) (s : State), InRange a 0 99 → ¬ InRange (s.acc + s.mem.peek a.toNat) (-999) 999 →
    exec (.add a) s = .next
      { s with fault := some ⟨.accumulatorOverflow, 5, s.pc - 1, some (100 + a)⟩, phase := .faulted,
               port := s.port ++ [.read a (s.mem.peek a.toNat)] }) ∧
  (∀ (a : Int) (s : State), InRange a 0 99 → AtFetch s (100 + a) →
    InRange (s.acc + s.mem.peek a.toNat) (-999) 999 → step s = .next
      { s with acc := s.acc + s.mem.peek a.toNat, pc := s.pc + 1, ir := 1, ar := a,
               port := s.port ++ [.read s.pc (100 + a), .read a (s.mem.peek a.toNat)] }) ∧
  (∀ (a : Int) (s : State), InRange a 0 99 → AtFetch s (100 + a) →
    ¬ InRange (s.acc + s.mem.peek a.toNat) (-999) 999 → step s = .next
      { s with pc := s.pc + 1, ir := 1, ar := a,
               fault := some ⟨.accumulatorOverflow, 5, s.pc, some (100 + a)⟩, phase := .faulted,
               port := s.port ++ [.read s.pc (100 + a), .read a (s.mem.peek a.toNat)] })

/-- SUB (R171; the range and the fault are the spec's decisions D2, D3): the exact difference in ACC if it lies in
[-999, 999]; otherwise AccumulatorOverflow with ACC unchanged. -/
def Obligations.SubIsExactOrFaults : Prop :=
  (∀ a, InRange a 0 99 → decode (200 + a) = .ok (.sub a)) ∧
  (∀ (a : Int) (s : State), InRange a 0 99 → InRange (s.acc - s.mem.peek a.toNat) (-999) 999 →
    exec (.sub a) s = .next
      { s with acc := s.acc - s.mem.peek a.toNat, phase := .fetch,
               port := s.port ++ [.read a (s.mem.peek a.toNat)] }) ∧
  (∀ (a : Int) (s : State), InRange a 0 99 → ¬ InRange (s.acc - s.mem.peek a.toNat) (-999) 999 →
    exec (.sub a) s = .next
      { s with fault := some ⟨.accumulatorOverflow, 5, s.pc - 1, some (200 + a)⟩, phase := .faulted,
               port := s.port ++ [.read a (s.mem.peek a.toNat)] }) ∧
  (∀ (a : Int) (s : State), InRange a 0 99 → AtFetch s (200 + a) →
    InRange (s.acc - s.mem.peek a.toNat) (-999) 999 → step s = .next
      { s with acc := s.acc - s.mem.peek a.toNat, pc := s.pc + 1, ir := 2, ar := a,
               port := s.port ++ [.read s.pc (200 + a), .read a (s.mem.peek a.toNat)] }) ∧
  (∀ (a : Int) (s : State), InRange a 0 99 → AtFetch s (200 + a) →
    ¬ InRange (s.acc - s.mem.peek a.toNat) (-999) 999 → step s = .next
      { s with pc := s.pc + 1, ir := 2, ar := a,
               fault := some ⟨.accumulatorOverflow, 5, s.pc, some (200 + a)⟩, phase := .faulted,
               port := s.port ++ [.read s.pc (200 + a), .read a (s.mem.peek a.toNat)] })

/-- In a state that meets the invariant, ADD ends in FAULTED exactly when the sum exceeds 999, and SUB exactly when the
difference is below -999: no ADD overflows downward and no SUB upward (R170, R171). -/
def Obligations.OverflowIsOneSided : Prop :=
  ∀ (s : State) (a : Int), Inv s → InRange a 0 99 →
    (∃ t, exec (.add a) s = .next t ∧ (t.phase = .faulted ↔ 999 < s.acc + s.mem.peek a.toNat)) ∧
    (∃ t, exec (.sub a) s = .next t ∧ (t.phase = .faulted ↔ s.acc - s.mem.peek a.toNat < -999))

/-! ### Store and load (43_memory_ops.md) -/

/-- STA (R180; the fault is the spec's decision D4): ACC in [0, 999] goes to the cell the operand names and to no
other; any other ACC faults WordOutOfRange before the write, with no transaction. -/
def Obligations.StaStoresOrFaults : Prop :=
  (∀ a, InRange a 0 99 → decode (300 + a) = .ok (.sta a)) ∧
  (∀ (a : Int) (s : State), InRange a 0 99 → InRange s.acc 0 999 → Memory.wf s.mem →
    ∃ t, exec (.sta a) s = .next t ∧
      t = { s with mem := t.mem, phase := .fetch, port := s.port ++ [.write a s.acc] } ∧
      t.mem.peek (dataAddress a).toNat = s.acc ∧
      ∀ k : Nat, k ≠ (dataAddress a).toNat → t.mem.peek k = s.mem.peek k) ∧
  (∀ (a : Int) (s : State), ¬ InRange s.acc 0 999 → exec (.sta a) s = .next
    { s with fault := some ⟨.wordOutOfRange, 6, s.pc - 1, some (300 + a)⟩, phase := .faulted }) ∧
  (∀ (a : Int) (s : State), InRange a 0 99 → AtFetch s (300 + a) → InRange s.acc 0 999 →
    step s = .next
      { s with mem := s.mem.poke a.toNat s.acc, pc := s.pc + 1, ir := 3, ar := a,
               port := s.port ++ [.read s.pc (300 + a), .write a s.acc] }) ∧
  (∀ (a : Int) (s : State), InRange a 0 99 → AtFetch s (300 + a) → ¬ InRange s.acc 0 999 →
    step s = .next
      { s with pc := s.pc + 1, ir := 3, ar := a,
               fault := some ⟨.wordOutOfRange, 6, s.pc, some (300 + a)⟩, phase := .faulted,
               port := s.port ++ [.read s.pc (300 + a)] })

/-- LDA (R181): ACC takes the word the operand names; it never faults; a cell nothing has written gives 0; and BRP
after LDA always branches, since a word is never negative. -/
def Obligations.LdaLoadsTheWord : Prop :=
  (∀ a, InRange a 0 99 → decode (500 + a) = .ok (.lda a)) ∧
  (∀ (a : Int) (s : State), InRange a 0 99 → exec (.lda a) s = .next
    { s with acc := s.mem.peek a.toNat, phase := .fetch,
             port := s.port ++ [.read a (s.mem.peek a.toNat)] }) ∧
  (∀ (a : Int) (s : State), InRange a 0 99 → AtFetch s (500 + a) → step s = .next
    { s with acc := s.mem.peek a.toNat, pc := s.pc + 1, ir := 5, ar := a,
             port := s.port ++ [.read s.pc (500 + a), .read a (s.mem.peek a.toNat)] }) ∧
  (∀ a : Int, InRange a 0 99 → State.reset.mem.peek a.toNat = 0) ∧
  (∀ (a b : Int) (s : State), InRange a 0 99 → Memory.wordsFit s.mem →
    ∃ t, exec (.lda a) s = .next t ∧ exec (.brp b) t = .next { t with pc := b, phase := .fetch })

/-- A word stored by STA is the word the next fetch from there splits, with nothing in between (R69). -/
def Obligations.StoreIsSeenByTheNextFetch : Prop :=
  ∀ (a : Int) (s : State), Memory.wf s.mem → InRange a 0 99 → InRange s.acc 0 999 →
    AtFetch s (300 + a) → a = s.pc + 1 →
    ∃ t u, step s = .next t ∧ phaseStep t = .next u ∧
      u.ir = s.acc / 100 ∧ u.ar = s.acc % 100 ∧ u.pc = a + 1 ∧ u.phase = .execute

/-! ### Branches (44_branch.md) -/

/-- BRA (R190): PC takes the operand, always; from address 99 too; a branch to itself leaves PC where it was. -/
def Obligations.BraBranches : Prop :=
  (∀ a, InRange a 0 99 → decode (600 + a) = .ok (.bra a)) ∧
  (∀ (a : Int) (s : State), exec (.bra a) s = .next { s with pc := a, phase := .fetch }) ∧
  (∀ (a : Int) (s : State), InRange a 0 99 → AtFetch s (600 + a) → step s = .next
    { s with pc := a, ir := 6, ar := a, port := s.port ++ [.read s.pc (600 + a)] }) ∧
  (∀ (a : Int) (s : State) (n : Nat), InRange a 0 99 → AtFetch s (600 + a) → s.pc = a →
    ∃ t, Host.Core.run Sys2Proof.core n s = .next t ∧ t.pc = a ∧ t.phase = .fetch)

/-- BRZ (R191): taken exactly when ACC is 0; otherwise PC keeps the fetch's value; ACC is unchanged. -/
def Obligations.BrzBranchesOnZero : Prop :=
  (∀ a, InRange a 0 99 → decode (700 + a) = .ok (.brz a)) ∧
  (∀ (a : Int) (s : State), s.acc = 0 → exec (.brz a) s = .next { s with pc := a, phase := .fetch }) ∧
  (∀ (a : Int) (s : State), s.acc ≠ 0 → exec (.brz a) s = .next { s with phase := .fetch }) ∧
  (∀ (a : Int) (s : State), InRange a 0 99 → AtFetch s (700 + a) → step s = .next
    { s with pc := if s.acc = 0 then a else s.pc + 1, ir := 7, ar := a,
             port := s.port ++ [.read s.pc (700 + a)] })

/-- BRP (R192): taken exactly when ACC is 0 or positive; ACC is unchanged; and a negative ACC comes only from SUB or
from INP's completion. -/
def Obligations.BrpBranchesOnZeroOrPositive : Prop :=
  (∀ a, InRange a 0 99 → decode (800 + a) = .ok (.brp a)) ∧
  (∀ (a : Int) (s : State), 0 ≤ s.acc → exec (.brp a) s = .next { s with pc := a, phase := .fetch }) ∧
  (∀ (a : Int) (s : State), s.acc < 0 → exec (.brp a) s = .next { s with phase := .fetch }) ∧
  (∀ (a : Int) (s : State), InRange a 0 99 → AtFetch s (800 + a) → step s = .next
    { s with pc := if 0 ≤ s.acc then a else s.pc + 1, ir := 8, ar := a,
             port := s.port ++ [.read s.pc (800 + a)] }) ∧
  (∀ s t : State, Memory.wordsFit s.mem → 0 ≤ s.acc → step s = .next t → t.acc < 0 →
    t.ir = 2 ∨ s.phase = .waitInput)

/-! ### Input and output (45_io.md) -/

/-- INP, issue (R200): the core enters WAIT_INPUT and nothing else changes; it may wait for ever, and that is not the
end of a run. -/
def Obligations.InpIssuesItsRequest : Prop :=
  decode 901 = .ok .inp ∧
  (∀ s : State, exec .inp s = .next { s with phase := .waitInput }) ∧
  (∀ s : State, AtFetch s 901 → ∃ t, step s = .next t ∧
    t = { s with pc := s.pc + 1, ir := 9, ar := 1, phase := .waitInput, port := s.port ++ [.read s.pc 901] } ∧
    t.status.waitingInput = true ∧ runEnded t = false ∧
    (s.input = [] → ∀ n, Host.Core.run Sys2Proof.core n t = .next t))

/-- INP, completion (R202; the accepted range and the two fault cases are the spec's decisions D13, D14): what the
core does with each answer, and that it holds without one (R138). -/
def Obligations.InpCompletesOnTheAnswer : Prop :=
  ∀ s : State, s.phase = .waitInput →
    (s.input = [] → step s = .next s) ∧
    (∀ v rest, s.input = .value v :: rest → InRange v (-999) 999 →
      step s = .next { s with acc := v, phase := .fetch, input := rest }) ∧
    (∀ v rest, s.input = .value v :: rest → ¬ InRange v (-999) 999 →
      step s = .next { s with fault := some ⟨.invalidInput, 3, s.pc - 1, some 901⟩,
                              phase := .faulted, input := rest }) ∧
    (∀ rest, s.input = .invalid :: rest →
      step s = .next { s with fault := some ⟨.invalidInput, 3, s.pc - 1, some 901⟩,
                              phase := .faulted, input := rest }) ∧
    (∀ rest, s.input = .exhausted :: rest →
      step s = .next { s with fault := some ⟨.inputExhausted, 4, s.pc - 1, some 901⟩,
                              phase := .faulted, input := rest })

/-- OUT (R203): one emission of ACC, negative or not, after those before it; ACC is unchanged; it never faults. -/
def Obligations.OutEmitsTheAccumulator : Prop :=
  decode 902 = .ok .out ∧
  (∀ s : State, exec .out s = .next { s with out := s.out ++ [s.acc], phase := .fetch }) ∧
  (∀ s : State, AtFetch s 902 → step s = .next
    { s with pc := s.pc + 1, ir := 9, ar := 2, out := s.out ++ [s.acc], port := s.port ++ [.read s.pc 902] })

/-- The reserved I/O words (R205): nothing changes except what the fetch changes. -/
def Obligations.ReservedIoDoesNothing : Prop :=
  (∀ a, InRange a 0 99 → a ≠ 1 → a ≠ 2 → decode (900 + a) = .ok (.ioReserved a)) ∧
  (∀ (a : Int) (s : State), exec (.ioReserved a) s = .next { s with phase := .fetch }) ∧
  (∀ (a : Int) (s : State), InRange a 0 99 → a ≠ 1 → a ≠ 2 → AtFetch s (900 + a) → step s = .next
    { s with pc := s.pc + 1, ir := 9, ar := a, port := s.port ++ [.read s.pc (900 + a)] })

/-- Emissions are never taken back: whatever happens to the machine, the output trace only grows, by at most one
emission, and that is ACC (R204, R252). -/
def Obligations.OutputTraceOnlyGrows : Prop :=
  ∀ (e : Event) (s t : State), react e s = .next t → t.out = s.out ∨ t.out = s.out ++ [s.acc]

/-! ### What an instruction may change (10_state.md) -/

/-- The access table of R32 and the frame of every instruction: IR, AR and the input queue are never written by an
execute body, and each other piece of state only by the instructions the table names (a fault also writes PHASE and
FAULT). -/
def Obligations.ExecWritesOnlyWhatTheTableNames : Prop :=
  ∀ (i : Instr) (s t : State), exec i s = .next t →
    (t.ir = s.ir ∧ t.ar = s.ar ∧ t.input = s.input) ∧
    (t.acc ≠ s.acc → ∃ a, i = .add a ∨ i = .sub a ∨ i = .lda a) ∧
    (t.pc ≠ s.pc → ∃ a, (i = .bra a ∨ i = .brz a ∧ s.acc = 0 ∨ i = .brp a ∧ 0 ≤ s.acc) ∧ t.pc = branchTarget a) ∧
    (t.halted ≠ s.halted → ∃ a, i = .hlt a) ∧
    (∀ k : Nat, t.mem.peek k ≠ s.mem.peek k → ∃ a, i = .sta a ∧ k = (dataAddress a).toNat) ∧
    (t.mem ≠ s.mem → ∃ a, i = .sta a) ∧
    (t.out ≠ s.out → i = .out) ∧
    (t.fault ≠ s.fault → t.phase = .faulted)

/-- PC becomes 100 only by the fetch from address 99 (R22, R35). -/
def Obligations.PcReachesHundredOnlyFromNinetyNine : Prop :=
  ∀ s t : State, Inv s → step s = .next t → t.pc = 100 → s.pc ≠ 100 → s.pc = 99 ∧ s.phase = .fetch

/-- The transactions of one cycle (R59): the fetch's read, then one read at AR for ADD, SUB and LDA, one write for a
STA that does not fault, and none for the rest. -/
def Obligations.TransactionsOfACycle : Prop :=
  ∀ (s t : State) (w : Int), Inv s → AtFetch s w → step s = .next t →
    t.port = s.port ++ .read s.pc w ::
      (if w / 100 = 1 ∨ w / 100 = 2 ∨ w / 100 = 5 then [.read (w % 100) (s.mem.peek (w % 100).toNat)]
       else if w / 100 = 3 ∧ 0 ≤ s.acc then [.write (w % 100) s.acc]
       else [])

/-! ### Faults (60_exceptions.md) -/

/-- Exactly when a cycle that starts in FETCH faults, in a state that meets the invariant (R220, R228). -/
def Obligations.WhenACycleFaults : Prop :=
  ∀ (s t : State), Inv s → s.phase = .fetch → step s = .next t →
    (t.phase = .faulted ↔
      s.pc = 100 ∨
      s.mem.peek s.pc.toNat / 100 = 4 ∨
      (s.mem.peek s.pc.toNat / 100 = 1 ∧
        999 < s.acc + s.mem.peek (s.mem.peek s.pc.toNat % 100).toNat) ∨
      (s.mem.peek s.pc.toNat / 100 = 2 ∧
        s.acc - s.mem.peek (s.mem.peek s.pc.toNat % 100).toNat < -999) ∨
      (s.mem.peek s.pc.toNat / 100 = 3 ∧ s.acc < 0))

/-- Faults are precise (R223, R224): a step that enters FAULTED leaves ACC, HALTED, the memory and the output trace as
they were, and PC, IR and AR as the fetch left them, or untouched where nothing was fetched. -/
def Obligations.FaultsArePrecise : Prop :=
  ∀ s t : State, step s = .next t → s.phase ≠ .faulted → t.phase = .faulted →
    t.acc = s.acc ∧ t.halted = s.halted ∧ t.mem = s.mem ∧ t.out = s.out ∧
    (∃ r, t.fault = some r ∧ r.code = r.kind.code) ∧
    (s.phase = .fetch → InRange s.pc 0 99 →
      t.pc = s.pc + 1 ∧ t.ir = s.mem.peek s.pc.toNat / 100 ∧ t.ar = s.mem.peek s.pc.toNat % 100 ∧
      ∃ r, t.fault = some r ∧ r.pc = s.pc) ∧
    (¬ (s.phase = .fetch ∧ InRange s.pc 0 99) → t.pc = s.pc ∧ t.ir = s.ir ∧ t.ar = s.ar)

/-! ### The invariant (10_state.md R35) -/

/-- The state after reset meets the invariant. -/
def Obligations.ResetMeetsTheInvariant : Prop := Inv State.reset

/-- Every step keeps the invariant, from every state that meets it. -/
def Obligations.EveryStepKeepsTheInvariant : Prop :=
  ∀ s t : State, Inv s → step s = .next t → Inv t

/-- So does every event, and so does every single transition of R130. -/
def Obligations.EventsAndTransitionsKeepTheInvariant : Prop :=
  (∀ (e : Event) (s t : State), Inv s → react e s = .next t → Inv t) ∧
  (∀ s t : State, Inv s → phaseStep s = .next t → Inv t)

/-- Every state of the machine's life meets the invariant, whatever image was loaded and whatever the world did. -/
def Obligations.ReachableStatesMeetTheInvariant : Prop :=
  ∀ s : State, Reachable s → Inv s

/-- The status outputs (R31), in every state that meets the invariant: `faulted` says that there is a fault record, no core
is both halted and faulted, and a run has ended exactly when one of the two is up, so never while input is waited
for (R139, the spec's decisions D10, D32). -/
def Obligations.StatusOutputsTellHowARunStands : Prop :=
  ∀ s : State, Inv s →
    (s.status.faulted = true ↔ s.status.fault ≠ none) ∧
    ¬ (s.status.halted = true ∧ s.status.faulted = true) ∧
    (runEnded s = true ↔ s.status.halted = true ∨ s.status.faulted = true) ∧
    (normalHalt s = true ↔ s.status.halted = true) ∧
    (s.status.waitingInput = true → runEnded s = false)

/-- What a program cannot observe. In every phase, the emissions made and the past of the memory port have no influence: a
step from a state that differs in them alone answers the same state, with the same emissions and transactions after
those before it. Outside EXECUTE, IR and AR have none either on what the step computes, emits or accesses (R30, R34's
ground for IR and AR, the spec's decision D9). That State holds a record of past transactions is the model's own
choice (log 7, DESIGN CHOICE). -/
def Obligations.UnobservableStateHasNoInfluence : Prop :=
  (∀ (s t : State) (out : List Int) (port : List Transaction), step s = .next t →
    ∃ o p, step { s with out := out, port := port } = .next { t with out := out ++ o, port := port ++ p } ∧
      t.out = s.out ++ o ∧ t.port = s.port ++ p) ∧
  (∀ (s t : State) (ir ar : Int) (out : List Int) (port : List Transaction),
    s.phase ≠ .execute → step s = .next t →
    ∃ t' o p, step { s with ir := ir, ar := ar, out := out, port := port } = .next t' ∧
      t'.pc = t.pc ∧ t'.acc = t.acc ∧ t'.halted = t.halted ∧ t'.phase = t.phase ∧ t'.fault = t.fault ∧
      t'.mem = t.mem ∧ t'.input = t.input ∧
      t.out = s.out ++ o ∧ t'.out = out ++ o ∧ t.port = s.port ++ p ∧ t'.port = port ++ p)

/-! ### Reset and loading (70_reset_and_hazards.md) -/

/-- The reset values of R34 (those of IR, AR, PHASE and FAULT are the spec's decisions D9, D12, D6), and memory all
zeros when it is created (R53). -/
def Obligations.ResetValues : Prop :=
  State.reset.pc = 0 ∧ State.reset.acc = 0 ∧ State.reset.halted = false ∧ State.reset.ir = 0 ∧
  State.reset.ar = 0 ∧ State.reset.phase = .fetch ∧ State.reset.fault = none ∧
  ∀ a : Nat, State.reset.mem.peek a = 0

/-- Reset in any phase (R250 to R252, the spec's decision D16): the core's registers take their reset values, memory,
emissions and past transactions stay, a waiting request is withdrawn, and the next fetch is from address 0. The
answer a withdrawn request waited for is dropped from the queue (log 4, the model's reading of "never consumed"). -/
def Obligations.CoreResetKeepsMemoryAndOutput : Prop :=
  ∀ s : State,
    s.coreReset = { State.reset with
      mem := s.mem, out := s.out, port := s.port,
      input := if s.phase = .waitInput then s.input.tail else s.input } ∧
    s.coreReset.status = ⟨false, false, none, false⟩ ∧
    ∃ t, phaseStep s.coreReset = .next t ∧ t.pc = 1 ∧
      t.ir = s.mem.peek 0 / 100 ∧ t.ar = s.mem.peek 0 % 100

/-- Memory at the start of a run (R255): the image from address 0 upward, and 0 in every other cell. -/
def Obligations.ImageIsInMemoryAtTheStart : Prop :=
  ∀ (image : List Int) (answers : List Answer), image.length ≤ 100 → (∀ w ∈ image, InRange w 0 999) →
    ∃ s, boot image answers = .ok s ∧
      (∀ i : Nat, i < image.length → image[i]? = some (s.mem.peek i)) ∧
      (∀ i : Nat, image.length ≤ i → s.mem.peek i = 0) ∧
      s.phase = .fetch ∧ s.pc = 0

/-- What the loader refuses (R256, R257 with the spec's decision D18; which error is named when both apply is the
model's choice, log 12, and the second clause leaves that case out). -/
def Obligations.LoaderRefusesBadImages : Prop :=
  (∀ (image : List Int) (answers : List Answer), 100 < image.length →
    boot image answers = .error .programTooLarge) ∧
  (∀ (image : List Int) (answers : List Answer), image.length ≤ 100 → (∃ w ∈ image, ¬ InRange w 0 999) →
    boot image answers = .error .invalidToken) ∧
  (∀ (source : Text) (answers : List Answer), 100 < (tokens source).length →
    bootText source answers = .error .programTooLarge) ∧
  (∀ (source : Text) (answers : List Answer), (tokens source).length ≤ 100 →
    (∃ t ∈ tokens source, ∀ w, parseInt t = some w → ¬ InRange w 0 999) →
    bootText source answers = .error .invalidToken)

/-! ### The assembler (30_encoding.md section 3) -/

/-- An image the assembler gives has one word of [0, 999] per non-blank line, at most 100, and the loader takes it
(R112, R113, R256): the run then starts from the reset state with that memory (R253) and the device's answers queued
(log 3). -/
def Obligations.AssembledImagesLoad : Prop :=
  ∀ (source : Text) (image : List Int) (answers : List Answer), assemble source = .ok image →
    image.length = (sourceLines source).length ∧ image.length ≤ 100 ∧ (∀ w ∈ image, InRange w 0 999) ∧
    ∃ s, boot image answers = .ok s ∧ s = { State.reset with mem := s.mem, input := answers }

/-- The assembled format is read back by the loader word for word (R112, R256). Its white space and its digits are the
model's choice (log 23, log 14, DESIGN CHOICE). -/
def Obligations.AssembledFormatReadsBack : Prop :=
  ∀ image : List Int, image.length ≤ 100 → (∀ w ∈ image, InRange w 0 999) →
    parseImage (renderImage image) = .ok image

/-- Pass 1 binds every label to the address of the line that defines it, before it or after, and a label defined
twice makes it fail (R103, R104). -/
def Obligations.LabelsBindToTheirLines : Prop :=
  ∀ (lines : List (List Token)) (known : Labels), collectLabels 0 [] lines = .ok known →
    (∀ (i : Nat) (l : List Token) (x : Token), lines[i]? = some l → definedLabel l = some x →
      known.find x = some i) ∧
    (∀ (x : Token) (i : Nat), known.find x = some i →
      ∃ l, lines[i]? = some l ∧ definedLabel l = some x)

/-- The text a word of [0, 999] is disassembled to assembles to that word again (R115, the spec's decision D36). The
digits of a data word are the model's choice (log 14, DESIGN CHOICE). -/
def Obligations.DisassemblyReassembles : Prop :=
  ∀ w : Int, InRange w 0 999 → assemble (disassemble w) = .ok [w]

/-- STA and STO are the same instruction to the assembler, in any case of letters (R111, the spec's decision D22), and
a source of more than 100 lines is refused before anything else (R113, decision D29). That this failure names no line is
the model's choice (log 13, DESIGN CHOICE). -/
def Obligations.StoIsStaAndLongSourcesFail : Prop :=
  (∀ (known : Labels) (t u : Token) (operands : List Token),
    upperCase t = ['S', 'T', 'A'] → upperCase u = ['S', 'T', 'O'] →
    assembleFields known (t :: operands) = assembleFields known (u :: operands)) ∧
  (∀ source : Text, 100 < (sourceLines source).length →
    assemble source = .error ⟨.programTooLarge, none⟩)
end

