-- ==== Sys2Proof/Laws/Decode.lean ====
section
/-! SUPPORT. Laws of the decoder: the split of a word, and the decoder's answer in terms of the word's digits (30_encoding.md R80, R83). -/

namespace Sys2Proof

@[simp] theorem opcodeOf_eq (w : Int) : opcodeOf w = w / 100 := rfl

@[simp] theorem operandOf_eq (w : Int) : operandOf w = w % 100 := rfl

/-- The hundreds digit of `100*d + a` (R10). -/
theorem opcode_of_digits {d a : Int} (h : OperandOk a) : (100 * d + a) / 100 = d := by omega

/-- The low digits of `100*d + a` (R10). -/
theorem operand_of_digits {d a : Int} (h : OperandOk a) : (100 * d + a) % 100 = a := by omega

theorem operandOf_ok (w : Int) : OperandOk (w % 100) := by
  constructor <;> omega

/-- A word of [0, 999] has a decimal digit for its opcode (R10). -/
theorem opcode_in_range {w : Int} (h : InRange w 0 999) : InRange (w / 100) 0 9 := by
  constructor <;> omega

theorem decode_eq (w : Int) : decode w = decodeFields (w / 100) (w % 100) := rfl

/-- The decoder on the word with opcode digit `d` and operand `a`. -/
theorem decode_of_digits {d a : Int} (h : OperandOk a) : decode (100 * d + a) = decodeFields d a := by
  rw [decode_eq, opcode_of_digits h, operand_of_digits h]

/-- The decoder refuses exactly the opcodes that are no digit (R83, R85). -/
theorem decodeFields_error {ir ar : Int} (h : ¬ InRange ir 0 9) :
    decodeFields ir ar = .error (.opcodeOutOfRange ir) := by
  unfold decodeFields
  iterate 10 rw [if_neg (by omega)]

/-- The decoder answers an instruction for every digit (R83). -/
theorem decodeFields_ok {ir : Int} (ar : Int) (h : InRange ir 0 9) : ∃ i, decodeFields ir ar = .ok i := by
  obtain ⟨h0, h9⟩ := h
  interval_cases ir <;> simp [decodeFields]
  split <;> [skip; split] <;> simp

/-- An instruction the decoder answers has the digits it was read from, and the reserved row has neither selector
(R83, R84). -/
theorem decodeFields_inv {ir ar : Int} {i : Instr} (h : decodeFields ir ar = .ok i) :
    ir = i.opcode ∧ ar = i.operand ∧ ∀ a, i = .ioReserved a → a ≠ 1 ∧ a ≠ 2 := by
  have hr : InRange ir 0 9 := by
    by_contra hn
    rw [decodeFields_error hn] at h
    cases h
  by_cases h9 : ir = 9
  · subst h9
    by_cases h1 : ar = 1
    · subst h1; cases h; simp [Instr.opcode, Instr.operand]
    · by_cases h2 : ar = 2
      · subst h2; cases h; simp [Instr.opcode, Instr.operand]
      · simp [decodeFields, h1, h2] at h
        subst h
        simp [Instr.opcode, Instr.operand, h1, h2]
  · obtain ⟨h0, hle⟩ := hr
    have h8 : ir ≤ 8 := by omega
    interval_cases ir <;> cases h <;> simp [Instr.opcode, Instr.operand]

end Sys2Proof
end

