-- ==== Sys2Proof/Laws/State.lean ====
section
/-! SUPPORT. One lemma per field for each named update of the state, so that no proof unfolds a record update. -/

namespace Sys2Proof.Machine

/-! Fault entry writes FAULT and PHASE (R223). -/

@[simp] theorem raise_pc (kind : FaultKind) (p : Int) (w : Option Int) (s : State) : (raise kind p w s).pc = s.pc := rfl
@[simp] theorem raise_ir (kind : FaultKind) (p : Int) (w : Option Int) (s : State) : (raise kind p w s).ir = s.ir := rfl
@[simp] theorem raise_ar (kind : FaultKind) (p : Int) (w : Option Int) (s : State) : (raise kind p w s).ar = s.ar := rfl
@[simp] theorem raise_acc (kind : FaultKind) (p : Int) (w : Option Int) (s : State) : (raise kind p w s).acc = s.acc := rfl
@[simp] theorem raise_halted (kind : FaultKind) (p : Int) (w : Option Int) (s : State) : (raise kind p w s).halted = s.halted := rfl
@[simp] theorem raise_phase (kind : FaultKind) (p : Int) (w : Option Int) (s : State) : (raise kind p w s).phase = .faulted := rfl
@[simp] theorem raise_fault (kind : FaultKind) (p : Int) (w : Option Int) (s : State) : (raise kind p w s).fault = some ⟨kind, kind.code, p, w⟩ := rfl
@[simp] theorem raise_mem (kind : FaultKind) (p : Int) (w : Option Int) (s : State) : (raise kind p w s).mem = s.mem := rfl
@[simp] theorem raise_input (kind : FaultKind) (p : Int) (w : Option Int) (s : State) : (raise kind p w s).input = s.input := rfl
@[simp] theorem raise_out (kind : FaultKind) (p : Int) (w : Option Int) (s : State) : (raise kind p w s).out = s.out := rfl
@[simp] theorem raise_port (kind : FaultKind) (p : Int) (w : Option Int) (s : State) : (raise kind p w s).port = s.port := rfl

/-! A fault of the execute phase names the fetch address and the word (R220). -/

@[simp] theorem raiseExec_pc (kind : FaultKind) (w : Int) (s : State) : (raiseExec kind w s).pc = s.pc := rfl
@[simp] theorem raiseExec_ir (kind : FaultKind) (w : Int) (s : State) : (raiseExec kind w s).ir = s.ir := rfl
@[simp] theorem raiseExec_ar (kind : FaultKind) (w : Int) (s : State) : (raiseExec kind w s).ar = s.ar := rfl
@[simp] theorem raiseExec_acc (kind : FaultKind) (w : Int) (s : State) : (raiseExec kind w s).acc = s.acc := rfl
@[simp] theorem raiseExec_halted (kind : FaultKind) (w : Int) (s : State) : (raiseExec kind w s).halted = s.halted := rfl
@[simp] theorem raiseExec_phase (kind : FaultKind) (w : Int) (s : State) : (raiseExec kind w s).phase = .faulted := rfl
@[simp] theorem raiseExec_fault (kind : FaultKind) (w : Int) (s : State) : (raiseExec kind w s).fault = some ⟨kind, kind.code, s.pc - 1, some w⟩ := rfl
@[simp] theorem raiseExec_mem (kind : FaultKind) (w : Int) (s : State) : (raiseExec kind w s).mem = s.mem := rfl
@[simp] theorem raiseExec_input (kind : FaultKind) (w : Int) (s : State) : (raiseExec kind w s).input = s.input := rfl
@[simp] theorem raiseExec_out (kind : FaultKind) (w : Int) (s : State) : (raiseExec kind w s).out = s.out := rfl
@[simp] theorem raiseExec_port (kind : FaultKind) (w : Int) (s : State) : (raiseExec kind w s).port = s.port := rfl

/-! The end of an execute body writes PHASE. -/

@[simp] theorem finish_pc (s : State) : (finish s).pc = s.pc := rfl
@[simp] theorem finish_ir (s : State) : (finish s).ir = s.ir := rfl
@[simp] theorem finish_ar (s : State) : (finish s).ar = s.ar := rfl
@[simp] theorem finish_acc (s : State) : (finish s).acc = s.acc := rfl
@[simp] theorem finish_halted (s : State) : (finish s).halted = s.halted := rfl
@[simp] theorem finish_phase (s : State) : (finish s).phase = .fetch := rfl
@[simp] theorem finish_fault (s : State) : (finish s).fault = s.fault := rfl
@[simp] theorem finish_mem (s : State) : (finish s).mem = s.mem := rfl
@[simp] theorem finish_input (s : State) : (finish s).input = s.input := rfl
@[simp] theorem finish_out (s : State) : (finish s).out = s.out := rfl
@[simp] theorem finish_port (s : State) : (finish s).port = s.port := rfl

/-! The end of an execute body that writes ACC. -/

@[simp] theorem finishWith_pc (r : Int) (s : State) : (finishWith r s).pc = s.pc := rfl
@[simp] theorem finishWith_ir (r : Int) (s : State) : (finishWith r s).ir = s.ir := rfl
@[simp] theorem finishWith_ar (r : Int) (s : State) : (finishWith r s).ar = s.ar := rfl
@[simp] theorem finishWith_acc (r : Int) (s : State) : (finishWith r s).acc = r := rfl
@[simp] theorem finishWith_halted (r : Int) (s : State) : (finishWith r s).halted = s.halted := rfl
@[simp] theorem finishWith_phase (r : Int) (s : State) : (finishWith r s).phase = .fetch := rfl
@[simp] theorem finishWith_fault (r : Int) (s : State) : (finishWith r s).fault = s.fault := rfl
@[simp] theorem finishWith_mem (r : Int) (s : State) : (finishWith r s).mem = s.mem := rfl
@[simp] theorem finishWith_input (r : Int) (s : State) : (finishWith r s).input = s.input := rfl
@[simp] theorem finishWith_out (r : Int) (s : State) : (finishWith r s).out = s.out := rfl
@[simp] theorem finishWith_port (r : Int) (s : State) : (finishWith r s).port = s.port := rfl

/-! What the fetch writes (R131). -/

@[simp] theorem latchWord_pc (w : Int) (s : State) : (latchWord w s).pc = s.pc + 1 := rfl
@[simp] theorem latchWord_ir (w : Int) (s : State) : (latchWord w s).ir = opcodeOf w := rfl
@[simp] theorem latchWord_ar (w : Int) (s : State) : (latchWord w s).ar = operandOf w := rfl
@[simp] theorem latchWord_acc (w : Int) (s : State) : (latchWord w s).acc = s.acc := rfl
@[simp] theorem latchWord_halted (w : Int) (s : State) : (latchWord w s).halted = s.halted := rfl
@[simp] theorem latchWord_phase (w : Int) (s : State) : (latchWord w s).phase = .execute := rfl
@[simp] theorem latchWord_fault (w : Int) (s : State) : (latchWord w s).fault = s.fault := rfl
@[simp] theorem latchWord_mem (w : Int) (s : State) : (latchWord w s).mem = s.mem := rfl
@[simp] theorem latchWord_input (w : Int) (s : State) : (latchWord w s).input = s.input := rfl
@[simp] theorem latchWord_out (w : Int) (s : State) : (latchWord w s).out = s.out := rfl
@[simp] theorem latchWord_port (w : Int) (s : State) : (latchWord w s).port = s.port := rfl

/-! Reset writes the core's registers and withdraws a request (R250, R252). -/

@[simp] theorem coreReset_pc (s : State) : s.coreReset.pc = 0 := rfl
@[simp] theorem coreReset_ir (s : State) : s.coreReset.ir = 0 := rfl
@[simp] theorem coreReset_ar (s : State) : s.coreReset.ar = 0 := rfl
@[simp] theorem coreReset_acc (s : State) : s.coreReset.acc = 0 := rfl
@[simp] theorem coreReset_halted (s : State) : s.coreReset.halted = false := rfl
@[simp] theorem coreReset_phase (s : State) : s.coreReset.phase = .fetch := rfl
@[simp] theorem coreReset_fault (s : State) : s.coreReset.fault = none := rfl
@[simp] theorem coreReset_mem (s : State) : s.coreReset.mem = s.mem := rfl
@[simp] theorem coreReset_input (s : State) : s.coreReset.input = inputAfterReset s := rfl
@[simp] theorem coreReset_out (s : State) : s.coreReset.out = s.out := rfl
@[simp] theorem coreReset_port (s : State) : s.coreReset.port = s.port := rfl

/-! The host's placing of a word writes one cell and makes the core ready to fetch. -/

@[simp] theorem placeFetchWord_pc (w : Int) (s : State) : (placeFetchWord w s).pc = s.pc := rfl
@[simp] theorem placeFetchWord_ir (w : Int) (s : State) : (placeFetchWord w s).ir = s.ir := rfl
@[simp] theorem placeFetchWord_ar (w : Int) (s : State) : (placeFetchWord w s).ar = s.ar := rfl
@[simp] theorem placeFetchWord_acc (w : Int) (s : State) : (placeFetchWord w s).acc = s.acc := rfl
@[simp] theorem placeFetchWord_halted (w : Int) (s : State) : (placeFetchWord w s).halted = false := rfl
@[simp] theorem placeFetchWord_phase (w : Int) (s : State) : (placeFetchWord w s).phase = .fetch := rfl
@[simp] theorem placeFetchWord_fault (w : Int) (s : State) : (placeFetchWord w s).fault = none := rfl
@[simp] theorem placeFetchWord_mem (w : Int) (s : State) : (placeFetchWord w s).mem = s.mem.poke s.pc.toNat w := rfl
@[simp] theorem placeFetchWord_input (w : Int) (s : State) : (placeFetchWord w s).input = s.input := rfl
@[simp] theorem placeFetchWord_out (w : Int) (s : State) : (placeFetchWord w s).out = s.out := rfl
@[simp] theorem placeFetchWord_port (w : Int) (s : State) : (placeFetchWord w s).port = s.port := rfl

/-! The state right after a fetch (R131). -/

@[simp] theorem afterFetch_pc (w : Int) (s : State) : (afterFetch w s).pc = s.pc + 1 := rfl
@[simp] theorem afterFetch_ir (w : Int) (s : State) : (afterFetch w s).ir = w / 100 := rfl
@[simp] theorem afterFetch_ar (w : Int) (s : State) : (afterFetch w s).ar = w % 100 := rfl
@[simp] theorem afterFetch_acc (w : Int) (s : State) : (afterFetch w s).acc = s.acc := rfl
@[simp] theorem afterFetch_halted (w : Int) (s : State) : (afterFetch w s).halted = s.halted := rfl
@[simp] theorem afterFetch_phase (w : Int) (s : State) : (afterFetch w s).phase = .execute := rfl
@[simp] theorem afterFetch_fault (w : Int) (s : State) : (afterFetch w s).fault = s.fault := rfl
@[simp] theorem afterFetch_mem (w : Int) (s : State) : (afterFetch w s).mem = s.mem := rfl
@[simp] theorem afterFetch_input (w : Int) (s : State) : (afterFetch w s).input = s.input := rfl
@[simp] theorem afterFetch_out (w : Int) (s : State) : (afterFetch w s).out = s.out := rfl
@[simp] theorem afterFetch_port (w : Int) (s : State) : (afterFetch w s).port = s.port ++ [.read s.pc w] := rfl

/-! A faulted state with a given record. -/

@[simp] theorem faultedWith_pc (kind : FaultKind) (code : Nat) (p : Int) (w : Option Int) (s : State) : (faultedWith kind code p w s).pc = s.pc := rfl
@[simp] theorem faultedWith_ir (kind : FaultKind) (code : Nat) (p : Int) (w : Option Int) (s : State) : (faultedWith kind code p w s).ir = s.ir := rfl
@[simp] theorem faultedWith_ar (kind : FaultKind) (code : Nat) (p : Int) (w : Option Int) (s : State) : (faultedWith kind code p w s).ar = s.ar := rfl
@[simp] theorem faultedWith_acc (kind : FaultKind) (code : Nat) (p : Int) (w : Option Int) (s : State) : (faultedWith kind code p w s).acc = s.acc := rfl
@[simp] theorem faultedWith_halted (kind : FaultKind) (code : Nat) (p : Int) (w : Option Int) (s : State) : (faultedWith kind code p w s).halted = s.halted := rfl
@[simp] theorem faultedWith_phase (kind : FaultKind) (code : Nat) (p : Int) (w : Option Int) (s : State) : (faultedWith kind code p w s).phase = .faulted := rfl
@[simp] theorem faultedWith_fault (kind : FaultKind) (code : Nat) (p : Int) (w : Option Int) (s : State) : (faultedWith kind code p w s).fault = some ⟨kind, code, p, w⟩ := rfl
@[simp] theorem faultedWith_mem (kind : FaultKind) (code : Nat) (p : Int) (w : Option Int) (s : State) : (faultedWith kind code p w s).mem = s.mem := rfl
@[simp] theorem faultedWith_input (kind : FaultKind) (code : Nat) (p : Int) (w : Option Int) (s : State) : (faultedWith kind code p w s).input = s.input := rfl
@[simp] theorem faultedWith_out (kind : FaultKind) (code : Nat) (p : Int) (w : Option Int) (s : State) : (faultedWith kind code p w s).out = s.out := rfl
@[simp] theorem faultedWith_port (kind : FaultKind) (code : Nat) (p : Int) (w : Option Int) (s : State) : (faultedWith kind code p w s).port = s.port := rfl

end Sys2Proof.Machine
end

