-- ==== Sys2Proof/Laws/Memory.lean ====
section
/-! SUPPORT. Laws of the memory: what a read gives after a write, and that every write keeps the canonical form (20_memory.md R54; log 1). -/

namespace Sys2Proof.Machine

@[simp] theorem Memory.peek_nil (a : Nat) : Memory.peek [] a = 0 := rfl

theorem Memory.peek_cons_pair (k : Nat) (w : Int) (m : Memory) (a : Nat) :
    Memory.peek ((k, w) :: m) a = if k = a then w else Memory.peek m a := rfl

/-- An address below every listed one reads as unlisted. -/
theorem Memory.peek_of_all_gt {m : Memory} {a : Nat} (h : ∀ c ∈ m, a < c.1) : m.peek a = 0 := by
  induction m with
  | nil => rfl
  | cons c m ih =>
    obtain ⟨k, w⟩ := c
    have hk : a < k := h (k, w) (by simp)
    rw [Memory.peek_cons_pair, if_neg (by omega)]
    exact ih fun c hc => h c (by simp [hc])

/-- A cell put in front reads as its value, if the memory behind reads 0 there. -/
theorem Memory.peek_cons_same {m : Memory} {a : Nat} (v : Int) (h : m.peek a = 0) :
    (Memory.cons a v m).peek a = v := by
  unfold Memory.cons
  split
  · rw [h, ‹v = _›]; rfl
  · simp [Memory.peek_cons_pair]

theorem Memory.peek_cons_ne (m : Memory) {a b : Nat} (v : Int) (h : b ≠ a) :
    (Memory.cons a v m).peek b = m.peek b := by
  unfold Memory.cons
  split
  · rfl
  · rw [Memory.peek_cons_pair, if_neg (Ne.symm h)]

/-- A write changes no other address, in any list (R54). -/
theorem Memory.peek_poke_ne (m : Memory) {a b : Nat} (v : Int) (h : b ≠ a) :
    (m.poke a v).peek b = m.peek b := by
  induction m with
  | nil => exact Memory.peek_cons_ne [] v h
  | cons c m ih =>
    obtain ⟨k, w⟩ := c
    unfold Memory.poke
    split
    · exact Memory.peek_cons_ne _ v h
    · split
      · rw [Memory.peek_cons_ne m v h, Memory.peek_cons_pair, if_neg (by omega)]
      · simp [Memory.peek_cons_pair, ih]

/-- A write is read back, in a memory whose addresses strictly rise (R54). -/
theorem Memory.peek_poke_same {m : Memory} (hm : m.Pairwise fun c d => c.1 < d.1) (a : Nat) (v : Int) :
    (m.poke a v).peek a = v := by
  induction m with
  | nil => exact Memory.peek_cons_same v rfl
  | cons c m ih =>
    obtain ⟨k, w⟩ := c
    obtain ⟨hk, hm'⟩ := List.pairwise_cons.1 hm
    unfold Memory.poke
    split
    · next h =>
      refine Memory.peek_cons_same v (Memory.peek_of_all_gt fun c hc => ?_)
      rcases List.mem_cons.1 hc with rfl | hc
      · exact h
      · exact lt_trans h (hk c hc)
    · split
      · next h =>
        subst h
        exact Memory.peek_cons_same v (Memory.peek_of_all_gt hk)
      · next h1 h2 =>
        rw [Memory.peek_cons_pair, if_neg (Ne.symm h2), ih hm']

/-- What a read gives after a write. -/
theorem Memory.peek_poke {m : Memory} (hm : Memory.wf m) (a b : Nat) (v : Int) :
    (m.poke a v).peek b = if b = a then v else m.peek b := by
  split
  · next h => rw [h, Memory.peek_poke_same hm.1]
  · next h => exact Memory.peek_poke_ne m v h

/-- Where a listed cell of a written memory comes from. -/
theorem Memory.mem_poke {m : Memory} {a : Nat} {v : Int} {c : MemCell} (h : c ∈ m.poke a v) :
    c ∈ m ∨ (c = (a, v) ∧ v ≠ 0) := by
  have hcons : ∀ {n : Memory}, c ∈ Memory.cons a v n → c ∈ n ∨ (c = (a, v) ∧ v ≠ 0) := by
    intro n hc
    unfold Memory.cons at hc
    split at hc
    · exact .inl hc
    · rcases List.mem_cons.1 hc with rfl | hc
      · exact .inr ⟨rfl, ‹_›⟩
      · exact .inl hc
  induction m with
  | nil => exact hcons h
  | cons d m ih =>
    obtain ⟨k, w⟩ := d
    unfold Memory.poke at h
    split at h
    · exact hcons h
    · split at h
      · rcases hcons h with h | h
        · exact .inl (List.mem_cons_of_mem _ h)
        · exact .inr h
      · rcases List.mem_cons.1 h with rfl | h
        · exact .inl (by simp)
        · rcases ih h with h | h
          · exact .inl (List.mem_cons_of_mem _ h)
          · exact .inr h

theorem Memory.pairwise_cons_of {m : Memory} (hm : m.Pairwise fun c d => c.1 < d.1) {a : Nat} (v : Int)
    (h : ∀ c ∈ m, a < c.1) : (Memory.cons a v m).Pairwise fun c d => c.1 < d.1 := by
  unfold Memory.cons
  split
  · exact hm
  · exact List.pairwise_cons.2 ⟨h, hm⟩

theorem Memory.pairwise_poke {m : Memory} (hm : m.Pairwise fun c d => c.1 < d.1) (a : Nat) (v : Int) :
    (m.poke a v).Pairwise fun c d => c.1 < d.1 := by
  induction m with
  | nil => exact Memory.pairwise_cons_of hm v (by simp)
  | cons c m ih =>
    obtain ⟨k, w⟩ := c
    obtain ⟨hk, hm'⟩ := List.pairwise_cons.1 hm
    unfold Memory.poke
    split
    · next h =>
      refine Memory.pairwise_cons_of hm v fun c hc => ?_
      rcases List.mem_cons.1 hc with rfl | hc
      · exact h
      · exact lt_trans h (hk c hc)
    · split
      · next h => subst h; exact Memory.pairwise_cons_of hm' v hk
      · next h1 h2 =>
        refine List.pairwise_cons.2 ⟨fun c hc => ?_, ih hm'⟩
        rcases Memory.mem_poke hc with hc | ⟨rfl, -⟩
        · exact hk c hc
        · show k < a
          omega

/-- Every write of a cell of memory keeps the canonical form. -/
theorem Memory.wf_poke {m : Memory} (hm : Memory.wf m) {a : Nat} (ha : a < 100) (v : Int) :
    Memory.wf (m.poke a v) := by
  refine ⟨Memory.pairwise_poke hm.1 a v, fun c hc => ?_⟩
  rcases Memory.mem_poke hc with hc | ⟨rfl, hv⟩
  · exact hm.2 c hc
  · exact ⟨ha, hv⟩

/-- Every write of a word keeps the cells words (R51). -/
theorem Memory.wordsFit_poke {m : Memory} (hm : Memory.wordsFit m) (a : Nat) {v : Int} (hv : WordFits v) :
    Memory.wordsFit (m.poke a v) := by
  intro c hc
  rcases Memory.mem_poke hc with hc | ⟨rfl, -⟩
  · exact hm c hc
  · exact hv

/-- A read of a memory of words gives a word (R51, R56). -/
theorem Memory.peek_fits {m : Memory} (hm : Memory.wordsFit m) (a : Nat) : WordFits (m.peek a) := by
  induction m with
  | nil => rw [Memory.peek_nil]; decide
  | cons c m ih =>
    obtain ⟨k, w⟩ := c
    rw [Memory.peek_cons_pair]
    split
    · exact hm (k, w) (by simp)
    · exact ih fun c hc => hm c (by simp [hc])

theorem Memory.wf_nil : Memory.wf [] := ⟨List.Pairwise.nil, by simp⟩

theorem Memory.wordsFit_nil : Memory.wordsFit [] := by simp [Memory.wordsFit]

end Sys2Proof.Machine
end

