-- ==== Sys2Proof/Laws/Ops.lean ====
section
/-! SUPPORT. One lemma per outcome of each shared operation: the memory port, the fetch, the ends of the execute bodies, and the step as the phase it starts in. -/

namespace Sys2Proof.Machine

/-! ### The port (R56, R57) -/

theorem memRead_of_valid {a : Int} (h : AddrValid a) (s : State) (k : Int → State → State) :
    memRead a s k =
      k (s.mem.peek a.toNat) { s with port := s.port ++ [.read a (s.mem.peek a.toNat)] } := if_pos h

theorem memRead_of_invalid {a : Int} (h : ¬ AddrValid a) (s : State) (k : Int → State → State) :
    memRead a s k = raise .outOfRangeAddress a none s := if_neg h

theorem memWrite_of_valid {a : Int} {v : Int} (h : AddrValid a) (hv : WordFits v) (s : State)
    (k : State → State) :
    memWrite a v s k =
      k { s with mem := s.mem.poke a.toNat v, port := s.port ++ [.write a v] } := by
  unfold memWrite
  rw [if_pos h, if_pos hv]

theorem memWrite_of_invalid {a : Int} (h : ¬ AddrValid a) (v : Int) (s : State) (k : State → State) :
    memWrite a v s k = raise .outOfRangeAddress a none s := if_neg h

/-- Everything a read can do: go on with the word, or fault (R56). -/
theorem memRead_cases (a : Int) (s : State) (k : Int → State → State) :
    (AddrValid a ∧ memRead a s k =
      k (s.mem.peek a.toNat) { s with port := s.port ++ [.read a (s.mem.peek a.toNat)] }) ∨
    (¬ AddrValid a ∧ memRead a s k = raise .outOfRangeAddress a none s) := by
  by_cases h : AddrValid a
  · exact .inl ⟨h, memRead_of_valid h s k⟩
  · exact .inr ⟨h, memRead_of_invalid h s k⟩

/-- Everything a write of a word can do: go on with the cell written, or fault (R57). -/
theorem memWrite_cases (a : Int) {v : Int} (hv : WordFits v) (s : State) (k : State → State) :
    (AddrValid a ∧ memWrite a v s k =
      k { s with mem := s.mem.poke a.toNat v, port := s.port ++ [.write a v] }) ∨
    (¬ AddrValid a ∧ memWrite a v s k = raise .outOfRangeAddress a none s) := by
  by_cases h : AddrValid a
  · exact .inl ⟨h, memWrite_of_valid h hv s k⟩
  · exact .inr ⟨h, memWrite_of_invalid h v s k⟩

/-! ### The ranges, as inequalities on numerals -/

theorem accFits_iff (r : Int) : AccFits r ↔ -999 ≤ r ∧ r ≤ 999 := Iff.rfl
theorem wordFits_iff (v : Int) : WordFits v ↔ 0 ≤ v ∧ v ≤ 999 := Iff.rfl
theorem inputFits_iff (v : Int) : InputFits v ↔ -999 ≤ v ∧ v ≤ 999 := Iff.rfl
theorem addrValid_iff (a : Int) : AddrValid a ↔ 0 ≤ a ∧ a ≤ 99 := Iff.rfl
@[simp] theorem memSize_eq : Config.memSize = 100 := rfl
@[simp] theorem addrMin_eq : Config.addrMin = 0 := rfl
@[simp] theorem addrMax_eq : Config.addrMax = 99 := rfl
@[simp] theorem wordMin_eq : Config.wordMin = 0 := rfl
@[simp] theorem wordMax_eq : Config.wordMax = 999 := rfl
@[simp] theorem accMin_eq : Config.accMin = -999 := rfl
@[simp] theorem accMax_eq : Config.accMax = 999 := rfl
@[simp] theorem inputMin_eq : Config.inputMin = -999 := rfl
@[simp] theorem inputMax_eq : Config.inputMax = 999 := rfl

/-! ### The fetch (R131, R132) -/

theorem fetch_of_valid {s : State} (h : AddrValid s.pc) :
    fetch s = afterFetch (s.mem.peek s.pc.toNat) s := by
  unfold fetch
  rw [if_pos h, memRead_of_valid h]
  rfl

theorem fetch_of_invalid {s : State} (h : ¬ AddrValid s.pc) :
    fetch s = raise .outOfRangeAddress s.pc none s := if_neg h

theorem AtFetch.fetch_eq {s : State} {w : Int} (h : AtFetch s w) : fetch s = afterFetch w s := by
  rw [fetch_of_valid h.2.1, h.2.2]

/-! ### The ends of the execute bodies -/

theorem settleAcc_of_fits {r : Int} (h : AccFits r) (w : Int) (s : State) :
    settleAcc r w s = finishWith r s := if_pos h

theorem settleAcc_of_not_fits {r : Int} (h : ¬ AccFits r) (w : Int) (s : State) :
    settleAcc r w s = raiseExec .accumulatorOverflow w s := if_neg h

theorem branchIf_true (a : Int) (s : State) :
    branchIf true a s = { s with pc := a, phase := .fetch } := rfl

theorem branchIf_false (a : Int) (s : State) : branchIf false a s = { s with phase := .fetch } := rfl

theorem completeInput_nil {s : State} (h : s.input = []) : completeInput s = s := by
  unfold completeInput; rw [h]

theorem completeInput_cons {s : State} {answer : Answer} {rest : List Answer}
    (h : s.input = answer :: rest) :
    completeInput s = answerInput answer { s with input := rest } := by
  unfold completeInput; rw [h]

/-- Everything the end of ADD and SUB can do (R172). -/
theorem settleAcc_cases (r w : Int) (s : State) :
    (AccFits r ∧ settleAcc r w s = finishWith r s) ∨
    (¬ AccFits r ∧ settleAcc r w s = raiseExec .accumulatorOverflow w s) := by
  by_cases h : AccFits r
  · exact .inl ⟨h, settleAcc_of_fits h w s⟩
  · exact .inr ⟨h, settleAcc_of_not_fits h w s⟩

/-- Everything an answer can do: give ACC a value in range, or fault (R202). -/
theorem answerInput_cases (answer : Answer) (s : State) :
    (∃ v, answer = .value v ∧ InputFits v ∧ answerInput answer s = finishWith v s) ∨
    (∃ kind, kind ≠ .outOfRangeAddress ∧ answerInput answer s = raiseExec kind 901 s) := by
  cases answer with
  | value v =>
    by_cases h : InputFits v
    · exact .inl ⟨v, rfl, h, if_pos h⟩
    · exact .inr ⟨.invalidInput, by decide, if_neg h⟩
  | invalid => exact .inr ⟨.invalidInput, by decide, rfl⟩
  | exhausted => exact .inr ⟨.inputExhausted, by decide, rfl⟩

/-! ### The meanings, one equation each (R134) -/

theorem exec_hlt (a : Int) (s : State) :
    exec (.hlt a) s = .next { s with halted := true, phase := .halted } := rfl
theorem exec_add (a : Int) (s : State) :
    exec (.add a) s = .next (memRead a s fun m t => settleAcc (t.acc + m) (100 + a) t) := rfl
theorem exec_sub (a : Int) (s : State) :
    exec (.sub a) s = .next (memRead a s fun m t => settleAcc (t.acc - m) (200 + a) t) := rfl
theorem exec_sta_of_fits {s : State} (h : WordFits s.acc) (a : Int) :
    exec (.sta a) s = .next (memWrite a s.acc s finish) := congrArg Host.Outcome.next (if_pos h)
theorem exec_sta_of_not_fits {s : State} (h : ¬ WordFits s.acc) (a : Int) :
    exec (.sta a) s = .next (raiseExec .wordOutOfRange (300 + a) s) := congrArg Host.Outcome.next (if_neg h)
theorem exec_invalidOpcode (a : Int) (s : State) :
    exec (.invalidOpcode a) s = .next (raiseExec .invalidOpcode (400 + a) s) := rfl
theorem exec_lda (a : Int) (s : State) : exec (.lda a) s = .next (memRead a s finishWith) := rfl
theorem exec_bra (a : Int) (s : State) : exec (.bra a) s = .next (branchIf true a s) := rfl
theorem exec_brz (a : Int) (s : State) : exec (.brz a) s = .next (branchIf (decide (s.acc = 0)) a s) := rfl
theorem exec_brp (a : Int) (s : State) : exec (.brp a) s = .next (branchIf (decide (0 ≤ s.acc)) a s) := rfl
theorem exec_inp (s : State) : exec .inp s = .next { s with phase := .waitInput } := rfl
theorem exec_out (s : State) : exec .out s = .next (finish { s with out := s.out ++ [s.acc] }) := rfl
theorem exec_ioReserved (a : Int) (s : State) : exec (.ioReserved a) s = .next (finish s) := rfl

/-! ### The execute phase and the step (R130, R134, R141) -/

theorem execute_of_decoded {s : State} {i : Instr} (h : decodeFields s.ir s.ar = .ok i) :
    execute s = exec i s := by
  unfold execute; rw [h]

theorem execute_of_no_digit {s : State} (h : ¬ InRange s.ir 0 9) :
    execute s = .next (raiseExec .invalidOpcode (100 * s.ir + s.ar) s) := by
  unfold execute; rw [decodeFields_error h]

/-- A step in FETCH with PC in memory executes the state the fetch leaves. -/
theorem step_of_fetch {s : State} (hp : s.phase = .fetch) (h : AddrValid s.pc) :
    step s = execute (afterFetch (s.mem.peek s.pc.toNat) s) := by
  unfold step cycle
  rw [fetch_of_valid h, if_pos ⟨hp, rfl⟩]

theorem AtFetch.step_eq {s : State} {w : Int} (h : AtFetch s w) : step s = execute (afterFetch w s) := by
  rw [step_of_fetch h.1 h.2.1, h.2.2]

/-- A step in FETCH with PC outside memory is the fetch's fault. -/
theorem step_of_bad_fetch {s : State} (hp : s.phase = .fetch) (h : ¬ AddrValid s.pc) :
    step s = .next (raise .outOfRangeAddress s.pc none s) := by
  unfold step cycle phaseStep
  rw [fetch_of_invalid h, if_neg (by simp), hp]

/-- A step in any other phase is that phase's one transition. -/
theorem step_of_not_fetch {s : State} (hp : s.phase ≠ .fetch) : step s = phaseStep s := by
  unfold step cycle
  rw [if_neg (fun h => hp h.1)]

/-! ### Runs -/

/-- A run of one step more is a step and then a run. -/
theorem run_succ (M : Host.Core) {n : Nat} {s t : M.State} (h : M.step s = .next t) :
    M.run (n + 1) s = M.run n t := by
  simp only [Host.Core.run, h]

theorem core_run_succ {n : Nat} {s t : State} (h : step s = .next t) :
    Host.Core.run Sys2Proof.core (n + 1) s = Host.Core.run Sys2Proof.core n t :=
  run_succ Sys2Proof.core h

theorem phaseCore_run_succ {n : Nat} {s t : State} (h : phaseStep s = .next t) :
    Host.Core.run phaseCore (n + 1) s = Host.Core.run phaseCore n t :=
  run_succ phaseCore h

end Sys2Proof.Machine
end

