-- ==== Sys2Proof/Laws/Inversion.lean ====
section
/-! SUPPORT. What an execute body, the execute phase and a step can do, said once: one named case per outcome, guards included. -/

namespace Sys2Proof.Machine

/-- Every outcome of an execute body. `mem.peek a.toNat` is the word at the operand; the cases `…BadAddress` need an
operand outside [0, 99], which no fetch gives. -/
inductive ExecOutcome (s : State) : Instr → State → Prop where
  | hlt (a : Int) : ExecOutcome s (.hlt a) { s with halted := true, phase := .halted }
  | addFits {a : Int} (hv : AddrValid a) (hr : AccFits (s.acc + s.mem.peek a.toNat)) :
      ExecOutcome s (.add a) { s with
        acc := s.acc + s.mem.peek a.toNat, phase := .fetch
        port := s.port ++ [.read a (s.mem.peek a.toNat)] }
  | addOverflow {a : Int} (hv : AddrValid a) (hr : ¬ AccFits (s.acc + s.mem.peek a.toNat)) :
      ExecOutcome s (.add a) { s with
        fault := some ⟨.accumulatorOverflow, 5, s.pc - 1, some (100 + a)⟩, phase := .faulted
        port := s.port ++ [.read a (s.mem.peek a.toNat)] }
  | addBadAddress {a : Int} (hv : ¬ AddrValid a) :
      ExecOutcome s (.add a) { s with fault := some ⟨.outOfRangeAddress, 1, a, none⟩, phase := .faulted }
  | subFits {a : Int} (hv : AddrValid a) (hr : AccFits (s.acc - s.mem.peek a.toNat)) :
      ExecOutcome s (.sub a) { s with
        acc := s.acc - s.mem.peek a.toNat, phase := .fetch
        port := s.port ++ [.read a (s.mem.peek a.toNat)] }
  | subOverflow {a : Int} (hv : AddrValid a) (hr : ¬ AccFits (s.acc - s.mem.peek a.toNat)) :
      ExecOutcome s (.sub a) { s with
        fault := some ⟨.accumulatorOverflow, 5, s.pc - 1, some (200 + a)⟩, phase := .faulted
        port := s.port ++ [.read a (s.mem.peek a.toNat)] }
  | subBadAddress {a : Int} (hv : ¬ AddrValid a) :
      ExecOutcome s (.sub a) { s with fault := some ⟨.outOfRangeAddress, 1, a, none⟩, phase := .faulted }
  | staFits {a : Int} (hv : AddrValid a) (hr : WordFits s.acc) :
      ExecOutcome s (.sta a) { s with
        mem := s.mem.poke a.toNat s.acc, phase := .fetch, port := s.port ++ [.write a s.acc] }
  | staOutOfRange {a : Int} (hr : ¬ WordFits s.acc) :
      ExecOutcome s (.sta a) { s with
        fault := some ⟨.wordOutOfRange, 6, s.pc - 1, some (300 + a)⟩, phase := .faulted }
  | staBadAddress {a : Int} (hv : ¬ AddrValid a) (hr : WordFits s.acc) :
      ExecOutcome s (.sta a) { s with fault := some ⟨.outOfRangeAddress, 1, a, none⟩, phase := .faulted }
  | invalidOpcode (a : Int) :
      ExecOutcome s (.invalidOpcode a) { s with
        fault := some ⟨.invalidOpcode, 2, s.pc - 1, some (400 + a)⟩, phase := .faulted }
  | lda {a : Int} (hv : AddrValid a) :
      ExecOutcome s (.lda a) { s with
        acc := s.mem.peek a.toNat, phase := .fetch, port := s.port ++ [.read a (s.mem.peek a.toNat)] }
  | ldaBadAddress {a : Int} (hv : ¬ AddrValid a) :
      ExecOutcome s (.lda a) { s with fault := some ⟨.outOfRangeAddress, 1, a, none⟩, phase := .faulted }
  | bra (a : Int) : ExecOutcome s (.bra a) { s with pc := a, phase := .fetch }
  | brzTaken (a : Int) (hz : s.acc = 0) : ExecOutcome s (.brz a) { s with pc := a, phase := .fetch }
  | brzNotTaken (a : Int) (hz : s.acc ≠ 0) : ExecOutcome s (.brz a) { s with phase := .fetch }
  | brpTaken (a : Int) (hz : 0 ≤ s.acc) : ExecOutcome s (.brp a) { s with pc := a, phase := .fetch }
  | brpNotTaken (a : Int) (hz : s.acc < 0) : ExecOutcome s (.brp a) { s with phase := .fetch }
  | inp : ExecOutcome s .inp { s with phase := .waitInput }
  | out : ExecOutcome s .out { s with out := s.out ++ [s.acc], phase := .fetch }
  | ioReserved (a : Int) : ExecOutcome s (.ioReserved a) { s with phase := .fetch }

/-- An execute body ends in one of its listed outcomes. -/
theorem exec_outcome {i : Instr} {s t : State} (h : exec i s = .next t) : ExecOutcome s i t := by
  cases i with
  | hlt a => cases h; exact .hlt a
  | add a =>
    rw [exec_add] at h
    injection h with h
    by_cases hv : AddrValid a
    · rw [memRead_of_valid hv] at h
      by_cases hr : AccFits (s.acc + s.mem.peek a.toNat)
      · rw [settleAcc_of_fits hr] at h; subst h; exact .addFits hv hr
      · rw [settleAcc_of_not_fits hr] at h; subst h; exact .addOverflow hv hr
    · rw [memRead_of_invalid hv] at h; subst h; exact .addBadAddress hv
  | sub a =>
    rw [exec_sub] at h
    injection h with h
    by_cases hv : AddrValid a
    · rw [memRead_of_valid hv] at h
      by_cases hr : AccFits (s.acc - s.mem.peek a.toNat)
      · rw [settleAcc_of_fits hr] at h; subst h; exact .subFits hv hr
      · rw [settleAcc_of_not_fits hr] at h; subst h; exact .subOverflow hv hr
    · rw [memRead_of_invalid hv] at h; subst h; exact .subBadAddress hv
  | sta a =>
    by_cases hr : WordFits s.acc
    · rw [exec_sta_of_fits hr] at h
      injection h with h
      by_cases hv : AddrValid a
      · rw [memWrite_of_valid hv hr] at h; subst h; exact .staFits hv hr
      · rw [memWrite_of_invalid hv] at h; subst h; exact .staBadAddress hv hr
    · rw [exec_sta_of_not_fits hr] at h; cases h; exact .staOutOfRange hr
  | invalidOpcode a => cases h; exact .invalidOpcode a
  | lda a =>
    rw [exec_lda] at h
    injection h with h
    by_cases hv : AddrValid a
    · rw [memRead_of_valid hv] at h; subst h; exact .lda hv
    · rw [memRead_of_invalid hv] at h; subst h; exact .ldaBadAddress hv
  | bra a => cases h; exact .bra a
  | brz a =>
    by_cases hz : s.acc = 0
    · rw [exec_brz, decide_eq_true hz, branchIf_true] at h; cases h; exact .brzTaken a hz
    · rw [exec_brz, decide_eq_false hz, branchIf_false] at h; cases h; exact .brzNotTaken a hz
  | brp a =>
    by_cases hz : 0 ≤ s.acc
    · rw [exec_brp, decide_eq_true hz, branchIf_true] at h; cases h; exact .brpTaken a hz
    · rw [exec_brp, decide_eq_false hz, branchIf_false] at h; cases h; exact .brpNotTaken a (by omega)
  | inp => cases h; exact .inp
  | out => cases h; exact .out
  | ioReserved a => cases h; exact .ioReserved a

/-- The execute phase runs the instruction IR and AR decode to, or faults on an opcode that is no digit. -/
theorem execute_cases {s t : State} (h : execute s = .next t) :
    (∃ i, decodeFields s.ir s.ar = .ok i ∧ exec i s = .next t) ∨
    (¬ InRange s.ir 0 9 ∧ t = raiseExec .invalidOpcode (100 * s.ir + s.ar) s) := by
  by_cases hr : InRange s.ir 0 9
  · obtain ⟨i, hi⟩ := decodeFields_ok s.ar hr
    rw [execute_of_decoded hi] at h
    exact .inl ⟨i, hi, h⟩
  · rw [execute_of_no_digit hr] at h
    cases h
    exact .inr ⟨hr, rfl⟩

/-- Every way a step can go. -/
theorem step_cases {s t : State} (h : step s = .next t) :
    (s.phase = .fetch ∧ AddrValid s.pc ∧ execute (afterFetch (s.mem.peek s.pc.toNat) s) = .next t) ∨
    (s.phase = .fetch ∧ ¬ AddrValid s.pc ∧ t = raise .outOfRangeAddress s.pc none s) ∨
    (s.phase = .execute ∧ execute s = .next t) ∨
    (s.phase = .waitInput ∧ s.input = [] ∧ t = s) ∨
    (s.phase = .waitInput ∧ ∃ answer rest, s.input = answer :: rest ∧
      t = answerInput answer { s with input := rest }) ∨
    ((s.phase = .halted ∨ s.phase = .faulted) ∧ t = s) := by
  by_cases hf : s.phase = .fetch
  · by_cases hv : AddrValid s.pc
    · rw [step_of_fetch hf hv] at h
      exact .inl ⟨hf, hv, h⟩
    · rw [step_of_bad_fetch hf hv] at h
      cases h
      exact .inr (.inl ⟨hf, hv, rfl⟩)
  · right; right
    rw [step_of_not_fetch hf] at h
    unfold phaseStep at h
    split at h
    · contradiction
    · next hp => exact .inl ⟨hp, h⟩
    · next hp =>
      cases h
      cases hi : s.input with
      | nil => exact .inr (.inl ⟨hp, rfl, completeInput_nil hi⟩)
      | cons answer rest => exact .inr (.inr (.inl ⟨hp, answer, rest, rfl, completeInput_cons hi⟩))
    · next hp => cases h; exact .inr (.inr (.inr ⟨.inl hp, rfl⟩))
    · next hp => cases h; exact .inr (.inr (.inr ⟨.inr hp, rfl⟩))

end Sys2Proof.Machine
end

