-- ==== Sys2Proof/Laws/Loader.lean ====
section
/-! SUPPORT. What the loader's filling of memory does (70_reset_and_hazards.md R255). -/

namespace Sys2Proof.Machine

/-- Filling from address `a` keeps the memory's form, puts the words at `a`, `a + 1`, … and changes no other cell. -/
theorem fillFrom_spec (ws : List Int) : ∀ (a : Nat) (m : Memory), a + ws.length ≤ 100 →
    (∀ w ∈ ws, WordFits w) → Memory.wf m → Memory.wordsFit m →
    Memory.wf (fillFrom a ws m) ∧ Memory.wordsFit (fillFrom a ws m) ∧
    (∀ i, i < a → (fillFrom a ws m).peek i = m.peek i) ∧
    (∀ i, i < ws.length → ws[i]? = some ((fillFrom a ws m).peek (a + i))) ∧
    (∀ i, a + ws.length ≤ i → (fillFrom a ws m).peek i = m.peek i) := by
  induction ws with
  | nil =>
    intro a m _ _ h1 h2
    exact ⟨h1, h2, fun _ _ => rfl, by simp, fun _ _ => rfl⟩
  | cons w ws ih =>
    intro a m hl hw h1 h2
    simp only [List.length_cons, List.forall_mem_cons] at hl hw
    obtain ⟨i1, i2, i3, i4, i5⟩ := ih (a + 1) (m.poke a w) (by omega) hw.2
      (Memory.wf_poke h1 (by omega) w) (Memory.wordsFit_poke h2 a hw.1)
    refine ⟨i1, i2, fun i hi => ?_, fun i hi => ?_, fun i hi => ?_⟩
    · rw [fillFrom, i3 i (by omega), Memory.peek_poke_ne _ _ (by omega)]
    · rw [fillFrom]
      cases i with
      | zero => rw [i3 (a + 0) (by omega)]; simp [Memory.peek_poke_same h1.1]
      | succ i =>
        rw [show a + (i + 1) = a + 1 + i by omega, ← i4 i (by simpa using hi)]
        simp
    · simp only [List.length_cons] at hi
      rw [fillFrom, i5 i (by omega), Memory.peek_poke_ne _ _ (by omega)]

end Sys2Proof.Machine
end

