-- ==== Sys2Proof/Laws/PerInstr.lean ====
section
/-! SUPPORT. The family EncodeRange, one lemma per constructor: a well-formed instruction's word lies in [0, 999], and its digits are the row's opcode and the operand. -/

namespace Sys2Proof.Laws.EncodeRange

/-- A well-formed instruction is encoded by a word of [0, 999] (R80). -/
def Statement (i : Instr) : Prop := i.wellFormed = true → InRange (encode i) 0 999

theorem hlt (a : Int) : Statement (.hlt a) := fun h => by
  simp [Instr.wellFormed, encode] at *; omega
theorem add (a : Int) : Statement (.add a) := fun h => by
  simp [Instr.wellFormed, encode] at *; omega
theorem sub (a : Int) : Statement (.sub a) := fun h => by
  simp [Instr.wellFormed, encode] at *; omega
theorem sta (a : Int) : Statement (.sta a) := fun h => by
  simp [Instr.wellFormed, encode] at *; omega
theorem invalidOpcode (a : Int) : Statement (.invalidOpcode a) := fun h => by
  simp [Instr.wellFormed, encode] at *; omega
theorem lda (a : Int) : Statement (.lda a) := fun h => by
  simp [Instr.wellFormed, encode] at *; omega
theorem bra (a : Int) : Statement (.bra a) := fun h => by
  simp [Instr.wellFormed, encode] at *; omega
theorem brz (a : Int) : Statement (.brz a) := fun h => by
  simp [Instr.wellFormed, encode] at *; omega
theorem brp (a : Int) : Statement (.brp a) := fun h => by
  simp [Instr.wellFormed, encode] at *; omega
theorem inp : Statement .inp := fun _ => by decide
theorem out : Statement .out := fun _ => by decide
theorem ioReserved (a : Int) : Statement (.ioReserved a) := fun h => by
  simp [Instr.wellFormed, encode] at *; omega

end Sys2Proof.Laws.EncodeRange
end

