-- ==== Sys2Proof/Laws/Text.lean ====
section
/-! SUPPORT. Laws of text: fields and lines, and that a printed number is read back (30_encoding.md R100, R102, R106, R112). -/

namespace Sys2Proof.Machine

theorem tokens_cons_of_char {c : Char} (hc : isSpace c = false) (cs : Text) :
    tokens (c :: cs) = consToken c (startsToken cs) (tokens cs) := by
  simp [tokens, hc]

/-- A field that ends at a white space is the first field (R102). -/
theorem tokens_append : ∀ (t : Token) (sp : Char) (rest : Text), t ≠ [] → (∀ c ∈ t, isSpace c = false) →
    isSpace sp = true → tokens (t ++ sp :: rest) = t :: tokens rest := by
  intro t sp rest
  induction t with
  | nil => intro h; contradiction
  | cons a t ih =>
    intro _ h hsp
    have ha : isSpace a = false := h a (by simp)
    rw [List.cons_append, tokens_cons_of_char ha]
    cases t with
    | nil => simp [startsToken, hsp, tokens, consToken]
    | cons b t =>
      rw [ih (by simp) (fun c hc => h c (by simp [hc])) hsp]
      simp [startsToken, h b (by simp), consToken]

/-- A text without white space is one field (R102). -/
theorem tokens_single : ∀ t : Token, t ≠ [] → (∀ c ∈ t, isSpace c = false) → tokens t = [t] := by
  intro t
  induction t with
  | nil => intro h; contradiction
  | cons a t ih =>
    intro _ h
    have ha : isSpace a = false := h a (by simp)
    rw [tokens_cons_of_char ha]
    cases t with
    | nil => simp [startsToken, tokens, consToken]
    | cons b t =>
      rw [ih (by simp) (fun c hc => h c (by simp [hc]))]
      simp [startsToken, h b (by simp), consToken]

/-- A text without a line feed is one line (R100). -/
theorem splitLines_single : ∀ t : Text, (∀ c ∈ t, c ≠ '\n') → splitLines t = [t] := by
  intro t
  induction t with
  | nil => intro _; rfl
  | cons c t ih =>
    intro h
    rw [splitLines, ih fun x hx => h x (by simp [hx])]
    simp [h c (by simp)]

/-- A digit is no white space and no sign, and it is read as the digit it prints. -/
theorem digitChar_facts (n : Nat) :
    isSpace (digitChar n) = false ∧ digitChar n ≠ '-' ∧ digitValue (digitChar n) = some (n % 10) := by
  have : n % 10 < 10 := Nat.mod_lt _ (by decide)
  unfold digitChar
  generalize n % 10 = d at *
  interval_cases d <;> decide

theorem threeDigits_token (n : Nat) : threeDigits n ≠ [] ∧ ∀ c ∈ threeDigits n, isSpace c = false := by
  refine ⟨by simp [threeDigits], fun c hc => ?_⟩
  simp only [threeDigits, twoDigits, List.mem_cons, List.not_mem_nil, or_false] at hc
  rcases hc with rfl | rfl | rfl <;> exact (digitChar_facts _).1

theorem twoDigits_token (n : Nat) : twoDigits n ≠ [] ∧ ∀ c ∈ twoDigits n, isSpace c = false := by
  refine ⟨by simp [twoDigits], fun c hc => ?_⟩
  simp only [twoDigits, List.mem_cons, List.not_mem_nil, or_false] at hc
  rcases hc with rfl | rfl <;> exact (digitChar_facts _).1

/-- A two-digit operand is read back (R106). -/
theorem parseNat_twoDigits {n : Nat} (h : n ≤ 99) : parseNat (twoDigits n) = some n := by
  simp only [parseNat, twoDigits, readDigits, (digitChar_facts _).2.2]
  congr 1; omega

/-- A three-digit word is read back, as a literal and as a decimal integer (R106, R112). -/
theorem parse_threeDigits {n : Nat} (h : n ≤ 999) :
    parseInt (threeDigits n) = some (n : Int) ∧ parseNat (threeDigits n) = some n := by
  have e : parseNat (threeDigits n) = some n := by
    simp only [parseNat, threeDigits, twoDigits, readDigits, (digitChar_facts _).2.2]
    congr 1; omega
  refine ⟨?_, e⟩
  have : parseInt (threeDigits n) = (parseNat (threeDigits n)).map fun n => (n : Int) := by
    unfold parseInt
    split
    · next cs heq =>
      exfalso
      have : digitChar (n / 100) = '-' := by simp [threeDigits] at heq; exact heq.1
      exact (digitChar_facts _).2.1 this
    · rfl
  rw [this, e]; rfl

end Sys2Proof.Machine
end

