-- ==== Sys2Proof/Tests/Slice0.lean ====
section
/-! SUPPORT. The model's own tests: ill-formed terms, words written out, the vectors of spec/95_test_vectors.md, and a witness for the hypotheses of each statement. -/

namespace Sys2Proof.Tests

open Sys2Proof Sys2Proof.Machine

/-! ### Helpers -/

/-- The core about to fetch from `pc`, with ACC and the listed cells given. -/
def startAt (pc acc : Int) (cells : Memory) : State :=
  { State.reset with pc := pc, acc := acc, mem := cells }

/-- The same, with answers the input device will give. -/
def startWith (answers : List Answer) (cells : Memory) : State :=
  { State.reset with mem := cells, input := answers }

/-- An outcome is a next state with a property. -/
def ends (o : Host.Outcome State Fault Refusal) (p : State → Bool) : Bool :=
  match o with
  | .next t => p t
  | .fault _ => false
  | .refused _ => false

/-- The core waiting for input with given answers, as INP at address 0 leaves it. -/
def waitingWith (answers : List Answer) : State :=
  { State.reset with pc := 1, ir := 9, ar := 1, phase := .waitInput, input := answers }

/-- A halted core. -/
def haltedAt (pc : Int) : State := { State.reset with pc := pc, halted := true, phase := .halted }

theorem startAt_inv {pc acc : Int} {cells : Memory} (hp : InRange pc 0 100) (ha : AccFits acc)
    (hm : Memory.wf cells) (hw : Memory.wordsFit cells) : Inv (startAt pc acc cells) where
  pc := hp
  pcAhead := by simp [startAt, State.reset]
  ir := (by decide : InRange 0 0 9)
  ar := (by decide : OperandOk 0)
  acc := ha
  memForm := hm
  memWords := hw
  halted := by simp [startAt, State.reset]
  fault := by simp [startAt, State.reset]
  faultRecord := by simp [startAt, State.reset]
  waiting := by simp [startAt, State.reset]
  out := by simp [startAt, State.reset]
  port := by simp [startAt, State.reset]

/-! ### Ill-formed terms (30_encoding.md R80, R86) -/

theorem test_illformed_operands :
    [Instr.hlt 100, .add 100, .sub 100, .sta 100, .invalidOpcode 100, .lda 100, .bra 100, .brz 100,
      .brp 100, .ioReserved 100].all (fun i => !i.wellFormed) = true ∧
    [Instr.hlt (-1), .add (-1), .sub (-1), .sta (-1), .invalidOpcode (-1), .lda (-1), .bra (-1),
      .brz (-1), .brp (-1), .ioReserved (-1)].all (fun i => !i.wellFormed) = true := by decide
theorem test_illformed_reserved_selector_inp : (Instr.ioReserved 1).wellFormed = false := by decide
theorem test_illformed_reserved_selector_out : (Instr.ioReserved 2).wellFormed = false := by decide

/-! ### Words written out from the digit patterns of R84 and of 95_test_vectors.md 2.1 -/

theorem test_word_hlt : decode 0 = .ok (.hlt 0) ∧ decode 42 = .ok (.hlt 42) ∧ decode 99 = .ok (.hlt 99) := by decide
theorem test_word_add : decode 100 = .ok (.add 0) ∧ decode 165 = .ok (.add 65) ∧ decode 199 = .ok (.add 99) := by decide
theorem test_word_sub : decode 200 = .ok (.sub 0) ∧ decode 250 = .ok (.sub 50) ∧ decode 299 = .ok (.sub 99) := by decide
theorem test_word_sta : decode 300 = .ok (.sta 0) ∧ decode 307 = .ok (.sta 7) ∧ decode 399 = .ok (.sta 99) := by decide
theorem test_word_invalid :
    decode 400 = .ok (.invalidOpcode 0) ∧ decode 437 = .ok (.invalidOpcode 37) ∧
    decode 499 = .ok (.invalidOpcode 99) := by decide
theorem test_word_lda : decode 500 = .ok (.lda 0) ∧ decode 565 = .ok (.lda 65) ∧ decode 599 = .ok (.lda 99) := by decide
theorem test_word_bra : decode 600 = .ok (.bra 0) ∧ decode 607 = .ok (.bra 7) ∧ decode 699 = .ok (.bra 99) := by decide
theorem test_word_brz : decode 700 = .ok (.brz 0) ∧ decode 705 = .ok (.brz 5) ∧ decode 799 = .ok (.brz 99) := by decide
theorem test_word_brp : decode 800 = .ok (.brp 0) ∧ decode 809 = .ok (.brp 9) ∧ decode 899 = .ok (.brp 99) := by decide
theorem test_word_inp : decode 901 = .ok .inp := by decide
theorem test_word_out : decode 902 = .ok .out := by decide
theorem test_word_reserved :
    decode 900 = .ok (.ioReserved 0) ∧ decode 903 = .ok (.ioReserved 3) ∧ decode 999 = .ok (.ioReserved 99) := by decide
theorem test_word_rejected :
    decode 1000 = .error (.opcodeOutOfRange 10) ∧ decode (-1) = .error (.opcodeOutOfRange (-1)) := by decide
theorem test_table_word : decodeTableWord 16 901 = some .inp ∧ decodeTableWord 16 1000 = none := by decide

/-! ### Vectors of 95_test_vectors.md (S1 to S5, sections 2.1 to 2.7) -/

/-- S1. -/
theorem test_memory_read_after_write : (Memory.poke [] 99 999).peek 99 = 999 ∧ (Memory.poke [(42, 123)] 42 0) = [] := by decide
/-- F3. -/
theorem test_fetch_past_end : ends (step (startAt 100 0 [])) (fun t => t.fault = some ⟨.outOfRangeAddress, 1, 100, none⟩ ∧
    t.pc = 100 ∧ t.port = [] ∧ t.phase = .faulted) = true := by decide
/-- F2. -/
theorem test_fetch_at_99 : ends (step (startAt 99 5 [(99, 902)])) (fun t => t.pc = 100 ∧ t.out = [5] ∧ t.phase = .fetch) = true := by decide
/-- F4. -/
theorem test_invalid_opcode : ends (step (startAt 12 0 [(12, 437)])) (fun t =>
    t.fault = some ⟨.invalidOpcode, 2, 12, some 437⟩ ∧ t.pc = 13 ∧ t.halted = false) = true := by decide
/-- H2. -/
theorem test_hlt_operand_ignored : ends (step (startAt 5 7 [(5, 42)])) (fun t => t.halted ∧ t.pc = 6 ∧ t.acc = 7) = true := by decide
/-- H3. -/
theorem test_hlt_at_99 : ends (step (startAt 99 0 [])) (fun t => t.halted ∧ t.pc = 100 ∧ t.fault = none) = true := by decide
/-- A6: the operand is added to a negative accumulator. -/
theorem test_add_negative : ends (step (startAt 0 (-5) [(0, 110), (10, 3)])) (fun t => t.acc = -2 ∧ t.pc = 1) = true := by decide
/-- A4. -/
theorem test_add_overflow : ends (step (startAt 0 500 [(0, 110), (10, 500)])) (fun t =>
    t.acc = 500 ∧ t.fault = some ⟨.accumulatorOverflow, 5, 0, some 110⟩ ∧ t.pc = 1) = true := by decide
/-- A9. -/
theorem test_sub_negative : ends (step (startAt 0 3 [(0, 210), (10, 5)])) (fun t => t.acc = -2 ∧ t.pc = 1) = true := by decide
/-- A12. -/
theorem test_sub_overflow : ends (step (startAt 0 (-999) [(0, 210), (10, 1)])) (fun t =>
    t.acc = -999 ∧ t.fault = some ⟨.accumulatorOverflow, 5, 0, some 210⟩) = true := by decide
/-- M6: a store over the instruction's own cell. -/
theorem test_sta_self : ends (step (startAt 3 902 [(3, 303)])) (fun t => t.mem = [(3, 902)] ∧ t.pc = 4 ∧ t.acc = 902) = true := by decide
/-- M4. -/
theorem test_sta_negative : ends (step (startAt 0 (-1) [(0, 307), (7, 5)])) (fun t =>
    t.fault = some ⟨.wordOutOfRange, 6, 0, some 307⟩ ∧ t.mem.peek 7 = 5 ∧ t.port = [.read 0 307]) = true := by decide
/-- L2. -/
theorem test_lda_unwritten : ends (step (startAt 0 9 [(0, 550)])) (fun t => t.acc = 0) = true := by decide
/-- L4. -/
theorem test_lda_self : ends (step (startAt 7 0 [(7, 507)])) (fun t => t.acc = 507 ∧ t.pc = 8) = true := by decide
/-- B1, S4. -/
theorem test_bra : ends (step (startAt 0 0 [(0, 607)])) (fun t => t.pc = 7) = true := by decide
/-- B13. -/
theorem test_bra_at_99 : ends (step (startAt 99 0 [(99, 605)])) (fun t => t.pc = 5 ∧ t.phase = .fetch) = true := by decide
/-- B4, B6. -/
theorem test_brz : ends (step (startAt 0 0 [(0, 705)])) (fun t => t.pc = 5) = true ∧
    ends (step (startAt 0 (-1) [(0, 705)])) (fun t => t.pc = 1) = true := by decide
/-- B8, B11. -/
theorem test_brp : ends (step (startAt 0 0 [(0, 809)])) (fun t => t.pc = 9) = true ∧
    ends (step (startAt 0 (-1) [(0, 809)])) (fun t => t.pc = 1) = true := by decide
/-- I9: the issue. -/
theorem test_inp_issue : ends (step (startAt 0 0 [(0, 901)])) (fun t => t.phase = .waitInput ∧ t.pc = 1) = true := by decide
/-- I3, I5, I7, I8: the answers. -/
theorem test_inp_answers :
    ends (step (waitingWith [.value (-999)])) (fun t => t.acc = -999 ∧ t.phase = .fetch ∧ t.input = []) = true ∧
    ends (step (waitingWith [.value 1000])) (fun t => t.fault = some ⟨.invalidInput, 3, 0, some 901⟩ ∧ t.acc = 0) = true ∧
    ends (step (waitingWith [.invalid])) (fun t => t.fault = some ⟨.invalidInput, 3, 0, some 901⟩) = true ∧
    ends (step (waitingWith [.exhausted])) (fun t => t.fault = some ⟨.inputExhausted, 4, 0, some 901⟩) = true := by decide
/-- O2. -/
theorem test_out_negative : ends (step (startAt 0 (-2) [(0, 902)])) (fun t => t.out = [-2] ∧ t.pc = 1) = true := by decide
/-- N1. -/
theorem test_reserved_noop : ends (step (startAt 0 3 [(0, 900)])) (fun t =>
    t.acc = 3 ∧ t.pc = 1 ∧ t.out = [] ∧ t.phase = .fetch) = true := by decide
/-- RS1. -/
theorem test_reset_from_fault : State.coreReset (raise .invalidOpcode 12 (some 437) (startAt 13 5 [(7, 9)])) =
    startAt 0 0 [(7, 9)] := by decide
/-- RS2, with the dropped answer of log 4. -/
theorem test_reset_while_waiting : ({ waitingWith [.value 3, .value 4] with out := [1, 2] }).coreReset =
    { startWith [.value 4] [] with out := [1, 2] } := by decide
/-- An answer delivered after a reset withdrew its request goes to the next INP: the model's choice, log 22. -/
theorem test_late_answer_after_reset :
    ends (react (.deliver (.value 8)) (waitingWith []).coreReset) (fun t => t.input = [.value 8] ∧ t.phase = .fetch) = true := by
  decide
/-- S3: 165 is ADD 65, placed where the next step fetches. -/
theorem test_placed_word_runs : ends (step ({ State.reset with mem := [(65, 42)] }.withFetchWord 16 165)) (fun t =>
    t.acc = 42 ∧ t.pc = 1 ∧ t.ir = 1 ∧ t.ar = 65) = true := by decide
/-- D34: a word no reachable state holds. -/
theorem test_word_above_range_faults : ends (step (State.reset.withFetchWord 16 1234)) (fun t =>
    t.fault = some ⟨.invalidOpcode, 2, 0, some 1234⟩) = true := by decide

/-! ### Loader and assembler vectors (S6 to S8, T1 to T16) -/

theorem test_load_text : (bootText "503 902\n000 007".toList []).toOption.map (fun s => s.mem) =
    some [(0, 503), (1, 902), (3, 7)] := by decide
theorem test_load_refuses : bootText "12 1000".toList [] = .error .invalidToken ∧
    bootText "12 x".toList [] = .error .invalidToken := by decide
theorem test_input_lines : Answer.ofLine " -42 ".toList = .value (-42) ∧ Answer.ofLine "4x".toList = .invalid ∧
    Answer.ofLine "".toList = .invalid := by decide
/-- S6. -/
theorem test_asm_labels : assemble "start LDA five\nfive  OUT\n      HLT".toList = .ok [501, 902, 0] := by decide
/-- T1. -/
theorem test_asm_case : assemble "lda num\nout\nhlt\nnum dat 7".toList = .ok [503, 902, 0, 7] := by decide
/-- T2, T3, T4, T5. -/
theorem test_asm_operand_errors :
    assemble "LDA num\nHLT\nNUM DAT 7".toList = .error ⟨.unknownLabel, some 0⟩ ∧
    assemble "ADD 150".toList = .error ⟨.invalidToken, some 0⟩ ∧
    assemble "ADD".toList = .error ⟨.malformedLine, some 0⟩ ∧
    assemble "ADD 5 6".toList = .error ⟨.malformedLine, some 0⟩ := by decide
/-- An operand of digits that are not ASCII (Arabic-Indic five) is no literal: the model's choice, log 20. -/
theorem test_asm_other_digits : assemble "ADD ٥".toList = .error ⟨.unknownLabel, some 0⟩ := by decide
/-- T6, T9, T10, T12, S8. -/
theorem test_asm_line_errors :
    assemble "A B C D".toList = .error ⟨.malformedLine, some 0⟩ ∧
    assemble "DAT 1000".toList = .error ⟨.invalidToken, some 0⟩ ∧
    assemble "X".toList = .error ⟨.malformedLine, some 0⟩ ∧
    assemble "ADD LDA".toList = .error ⟨.invalidToken, some 0⟩ ∧
    assemble "X DAT 1\nX DAT 2".toList = .error ⟨.duplicateLabel, some 1⟩ := by decide
/-- T7, T8, T14. -/
theorem test_asm_words : assemble "OUT 5".toList = .ok [902] ∧ assemble "DAT".toList = .ok [0] ∧
    assemble "STO 7".toList = .ok [307] := by decide
/-- T13, T15. -/
theorem test_asm_label_wins : assemble "5 DAT 9\nLDA 5".toList = .ok [9, 500] ∧
    assemble "LDA X\n\nX DAT 3".toList = .ok [501, 3] := by decide

/-! ### A witness for the hypotheses of every statement, at the ends of the ranges -/

theorem witness_DecodeUndoesEncode :
    (Instr.lda 99).wellFormed = true ∧ Instr.inp.wellFormed = true ∧ (Instr.ioReserved 0).wellFormed = true := by decide

theorem witness_words_in_range : InRange 0 0 999 ∧ InRange 999 0 999 ∧ InRange 901 0 999 := by decide

/-- EncodeUndoesDecode, EveryWordIsInExactlyOneRow, DisassemblyReassembles have the hypothesis of
`witness_words_in_range`; this is FetchSplitsTheWord's. -/
theorem witness_FetchSplitsTheWord : InRange 999 0 999 ∧ AtFetch (startAt 99 0 [(99, 999)]) 999 :=
  ⟨by decide, rfl, by decide, by decide⟩

theorem witness_WordsOutOfRangeFaultInvalidOpcode :
    (¬ InRange 1000 0 999 ∧ AtFetch (startAt 0 0 [(0, 1000)]) 1000) ∧
    (¬ InRange (-1) 0 999 ∧ AtFetch (startAt 0 0 [(0, -1)]) (-1)) :=
  ⟨⟨by decide, rfl, by decide, by decide⟩, ⟨by decide, rfl, by decide, by decide⟩⟩

theorem witness_ReadAfterWriteReturnsTheWord :
    Memory.wf (startAt 0 0 [(0, 5), (99, 7)]).mem ∧ InRange 99 0 99 ∧ InRange 999 0 999 ∧ InRange 0 0 99 := by decide

theorem witness_AccessOutsideMemoryFaults : ¬ InRange 100 0 99 ∧ ¬ InRange (-1) 0 99 := by decide

theorem witness_EqualReadsMeanEqualMemories : Memory.wf [(0, 5), (99, 7)] ∧
    ∀ a, Memory.peek [(0, 5), (99, 7)] a = Memory.peek [(0, 5), (99, 7)] a := ⟨by decide, fun _ => rfl⟩

theorem witness_FetchReadsIncrementsAndSplits :
    (haltedAt 3).phase = .halted ∧ AtFetch (startAt 99 0 [(99, 902)]) 902 ∧
    ((startAt 100 0 []).phase = .fetch ∧ ¬ InRange (startAt 100 0 []).pc 0 99) :=
  ⟨rfl, ⟨rfl, by decide, by decide⟩, rfl, by decide⟩

theorem witness_FetchPastTheEndFaults :
    (startAt 100 0 []).phase = .fetch ∧ ¬ InRange (startAt 100 0 []).pc 0 99 := ⟨rfl, by decide⟩

theorem witness_StepRunsTheDecodedInstruction :
    (AtFetch (startAt 99 0 [(99, 902)]) 902 ∧ decode 902 = .ok .out) ∧
    ((afterFetch 902 (startAt 0 0 [])).phase = .execute ∧
      decodeFields (afterFetch 902 (startAt 0 0 [])).ir (afterFetch 902 (startAt 0 0 [])).ar = .ok .out) :=
  ⟨⟨⟨rfl, by decide, by decide⟩, by decide⟩, rfl, by decide⟩

theorem witness_CyclesAndPhaseTransitionsAgree :
    (∃ t, Host.Core.run Sys2Proof.core 1 (startAt 0 0 [(0, 607)]) = .next t) ∧
    (∃ t, (startAt 0 0 [(0, 607)]).phase ≠ .execute ∧ t.phase ≠ .execute ∧
      Host.Core.run phaseCore 2 (startAt 0 0 [(0, 607)]) = .next t) :=
  ⟨⟨_, rfl⟩, startAt 7 0 [(0, 607)] |> fun s => { s with ir := 6, ar := 7, port := [.read 0 607] },
    by decide, by decide, rfl⟩

/-- One state for each row of R130's table. -/
theorem witness_StepFollowsThePhaseTable :
    (∃ t, phaseStep (startAt 99 0 []) = .next t ∧ InRange (startAt 99 0 []).pc 0 99 ∧ t.phase = .execute) ∧
    (∃ t, step (startAt 100 0 []) = .next t ∧ ¬ InRange (startAt 100 0 []).pc 0 99 ∧ t.phase = .faulted) ∧
    (∃ t, step (afterFetch 499 (startAt 0 0 [])) = .next t ∧ (afterFetch 499 (startAt 0 0 [])).phase = .execute) ∧
    (∃ t, step (waitingWith []) = .next t ∧ (waitingWith []).phase = .waitInput ∧ t.phase = .waitInput) ∧
    (∃ t, step (waitingWith [.value 999]) = .next t ∧ t.phase = .fetch) ∧
    (∃ t, step (startAt 0 0 []) = .next t ∧ t.phase = .halted) ∧
    (∃ t, step (startAt 0 0 [(0, 901)]) = .next t ∧ t.phase = .waitInput) ∧
    (∃ t, step (haltedAt 1) = .next t ∧ (haltedAt 1).phase = .halted) ∧
    (∃ t, step (raise .invalidOpcode 0 none State.reset) = .next t) :=
  ⟨⟨_, rfl, by decide, rfl⟩, ⟨_, rfl, by decide, rfl⟩, ⟨_, rfl, rfl⟩, ⟨_, rfl, rfl, rfl⟩, ⟨_, rfl, rfl⟩,
    ⟨_, rfl, rfl⟩, ⟨_, rfl, rfl⟩, ⟨_, rfl, rfl⟩, _, rfl⟩

/-- The rows of R130 for EXECUTE, read off the table at the ends of the ranges. -/
theorem test_phase_rows_of_execute :
    phaseAfterExecute (afterFetch 99 (startAt 0 0 [])) = .halted ∧
    phaseAfterExecute (afterFetch 199 (startAt 0 998 [(99, 1)])) = .fetch ∧
    phaseAfterExecute (afterFetch 199 (startAt 0 999 [(99, 1)])) = .faulted ∧
    phaseAfterExecute (afterFetch 299 (startAt 0 (-999) [(99, 1)])) = .faulted ∧
    phaseAfterExecute (afterFetch 399 (startAt 0 0 [])) = .fetch ∧
    phaseAfterExecute (afterFetch 399 (startAt 0 (-1) [])) = .faulted ∧
    phaseAfterExecute (afterFetch 400 (startAt 0 0 [])) = .faulted ∧
    phaseAfterExecute (afterFetch 599 (startAt 0 0 [])) = .fetch ∧
    phaseAfterExecute (afterFetch 899 (startAt 0 (-1) [])) = .fetch ∧
    phaseAfterExecute (afterFetch 901 (startAt 0 0 [])) = .waitInput ∧
    phaseAfterExecute (afterFetch 902 (startAt 0 0 [])) = .fetch ∧
    phaseAfterExecute (afterFetch 900 (startAt 0 0 [])) = .fetch := by decide

theorem witness_OnlyResetLeavesHaltedAndFaulted :
    (haltedAt 1).phase = .halted ∧ (raise .invalidOpcode 0 none State.reset).phase = .faulted ∧
    Event.deliver .invalid ≠ .reset ∧ ∃ t, react (.deliver .invalid) (haltedAt 1) = .next t :=
  ⟨rfl, rfl, by decide, _, rfl⟩

theorem witness_operand_ends : InRange 0 0 99 ∧ InRange 99 0 99 := by decide

theorem witness_HltHalts : InRange 99 0 99 ∧ AtFetch (startAt 99 7 [(99, 99)]) 99 :=
  ⟨by decide, rfl, by decide, by decide⟩

theorem witness_InvalidOpcodeFaults : InRange 99 0 99 ∧ AtFetch (startAt 99 7 [(99, 499)]) (400 + 99) :=
  ⟨by decide, rfl, by decide, by decide⟩

theorem witness_AddIsExactOrFaults :
    (InRange 99 0 99 ∧ AtFetch (startAt 0 500 [(0, 199), (99, 499)]) (100 + 99) ∧
      InRange ((startAt 0 500 [(0, 199), (99, 499)]).acc +
        (startAt 0 500 [(0, 199), (99, 499)]).mem.peek (99 : Int).toNat) (-999) 999) ∧
    (AtFetch (startAt 0 500 [(0, 199), (99, 500)]) (100 + 99) ∧
      ¬ InRange ((startAt 0 500 [(0, 199), (99, 500)]).acc +
        (startAt 0 500 [(0, 199), (99, 500)]).mem.peek (99 : Int).toNat) (-999) 999) :=
  ⟨⟨by decide, ⟨rfl, by decide, by decide⟩, by decide⟩, ⟨rfl, by decide, by decide⟩, by decide⟩

theorem witness_SubIsExactOrFaults :
    (InRange 99 0 99 ∧ AtFetch (startAt 0 0 [(0, 299), (99, 999)]) (200 + 99) ∧
      InRange ((startAt 0 0 [(0, 299), (99, 999)]).acc -
        (startAt 0 0 [(0, 299), (99, 999)]).mem.peek (99 : Int).toNat) (-999) 999) ∧
    (AtFetch (startAt 0 (-1) [(0, 299), (99, 999)]) (200 + 99) ∧
      ¬ InRange ((startAt 0 (-1) [(0, 299), (99, 999)]).acc -
        (startAt 0 (-1) [(0, 299), (99, 999)]).mem.peek (99 : Int).toNat) (-999) 999) :=
  ⟨⟨by decide, ⟨rfl, by decide, by decide⟩, by decide⟩, ⟨rfl, by decide, by decide⟩, by decide⟩

theorem witness_OverflowIsOneSided : Inv (startAt 0 999 [(99, 999)]) ∧ InRange 99 0 99 :=
  ⟨startAt_inv (by decide) (by decide) (by decide) (by decide), by decide⟩

theorem witness_StaStoresOrFaults :
    (InRange 99 0 99 ∧ InRange (startAt 0 999 [(0, 399)]).acc 0 999 ∧ Memory.wf (startAt 0 999 [(0, 399)]).mem ∧
      AtFetch (startAt 0 999 [(0, 399)]) (300 + 99)) ∧
    (AtFetch (startAt 0 (-1) [(0, 399)]) (300 + 99) ∧ ¬ InRange (startAt 0 (-1) [(0, 399)]).acc 0 999) :=
  ⟨⟨by decide, by decide, by decide, rfl, by decide, by decide⟩, ⟨rfl, by decide, by decide⟩, by decide⟩

theorem witness_LdaLoadsTheWord : InRange 99 0 99 ∧ AtFetch (startAt 0 9 [(0, 599), (99, 999)]) (500 + 99) ∧
    Memory.wordsFit (startAt 0 9 [(0, 599), (99, 999)]).mem := ⟨by decide, ⟨rfl, by decide, by decide⟩, by decide⟩

theorem witness_StoreIsSeenByTheNextFetch :
    Memory.wf (startAt 98 999 [(98, 399)]).mem ∧ InRange 99 0 99 ∧ InRange (startAt 98 999 [(98, 399)]).acc 0 999 ∧
    AtFetch (startAt 98 999 [(98, 399)]) (300 + 99) ∧ (99 : Int) = (startAt 98 999 [(98, 399)]).pc + 1 :=
  ⟨by decide, by decide, by decide, ⟨rfl, by decide, by decide⟩, by decide⟩

theorem witness_BraBranches : InRange 99 0 99 ∧ AtFetch (startAt 99 0 [(99, 699)]) (600 + 99) ∧
    (startAt 99 0 [(99, 699)]).pc = 99 := ⟨by decide, ⟨rfl, by decide, by decide⟩, by decide⟩

theorem witness_BrzBranchesOnZero : (startAt 0 0 []).acc = 0 ∧ (startAt 0 (-1) []).acc ≠ 0 ∧ InRange 99 0 99 ∧
    AtFetch (startAt 99 1 [(99, 799)]) (700 + 99) := ⟨by decide, by decide, by decide, rfl, by decide, by decide⟩

theorem witness_BrpBranchesOnZeroOrPositive : 0 ≤ (startAt 0 0 []).acc ∧ (startAt 0 (-1) []).acc < 0 ∧
    InRange 99 0 99 ∧ AtFetch (startAt 99 0 [(99, 899)]) (800 + 99) ∧
    Memory.wordsFit (startAt 0 3 [(0, 210), (10, 5)]).mem ∧
    ∃ t, step (startAt 0 3 [(0, 210), (10, 5)]) = .next t ∧ t.acc < 0 :=
  ⟨by decide, by decide, by decide, ⟨rfl, by decide, by decide⟩, by decide, _, rfl, by decide⟩

theorem witness_InpIssuesItsRequest : AtFetch (startAt 99 0 [(99, 901)]) 901 ∧ (startAt 99 0 [(99, 901)]).input = [] :=
  ⟨⟨rfl, by decide, by decide⟩, rfl⟩

theorem witness_InpCompletesOnTheAnswer :
    (waitingWith []).phase = .waitInput ∧ (waitingWith []).input = [] ∧
    (waitingWith [.value 999]).input = .value 999 :: [] ∧ InRange 999 (-999) 999 ∧ InRange (-999) (-999) 999 ∧
    (waitingWith [.value 1000]).input = .value 1000 :: [] ∧ ¬ InRange 1000 (-999) 999 ∧ ¬ InRange (-1000) (-999) 999 ∧
    (waitingWith [.invalid]).input = .invalid :: [] ∧ (waitingWith [.exhausted]).input = .exhausted :: [] := by decide

theorem witness_OutEmitsTheAccumulator : AtFetch (startAt 99 (-999) [(99, 902)]) 902 := ⟨rfl, by decide, by decide⟩

theorem witness_ReservedIoDoesNothing :
    (InRange 0 0 99 ∧ (0 : Int) ≠ 1 ∧ (0 : Int) ≠ 2 ∧ AtFetch (startAt 0 3 [(0, 900)]) (900 + 0)) ∧
    (InRange 99 0 99 ∧ (99 : Int) ≠ 1 ∧ (99 : Int) ≠ 2 ∧ AtFetch (startAt 99 3 [(99, 999)]) (900 + 99)) :=
  ⟨⟨by decide, by decide, by decide, rfl, by decide, by decide⟩,
    by decide, by decide, by decide, rfl, by decide, by decide⟩

theorem witness_OutputTraceOnlyGrows : (∃ t, react .tick (startAt 0 7 [(0, 902)]) = .next t ∧ t.out = [7]) ∧
    ∃ t, react .reset (startAt 0 7 [(0, 902)]) = .next t := ⟨⟨_, rfl, rfl⟩, _, rfl⟩

theorem witness_ExecWritesOnlyWhatTheTableNames :
    (∃ t, exec (.sta 9) (startAt 1 5 []) = .next t ∧ t.mem.peek 9 ≠ (startAt 1 5 []).mem.peek 9) ∧
    (∃ t, exec (.brz 9) (startAt 1 0 []) = .next t ∧ t.pc ≠ 1) ∧
    (∃ t, exec (.lda 9) (startAt 1 5 []) = .next t ∧ t.acc ≠ 5) ∧
    (∃ t, exec (.hlt 0) (startAt 1 5 []) = .next t ∧ t.halted ≠ false) ∧
    (∃ t, exec .out (startAt 1 5 []) = .next t ∧ t.out ≠ []) ∧
    (∃ t, exec (.invalidOpcode 0) (startAt 1 5 []) = .next t ∧ t.fault ≠ none) :=
  ⟨⟨_, rfl, by decide⟩, ⟨_, rfl, by decide⟩, ⟨_, rfl, by decide⟩, ⟨_, rfl, by decide⟩, ⟨_, rfl, by decide⟩,
    _, rfl, by decide⟩

theorem witness_PcReachesHundredOnlyFromNinetyNine : Inv (startAt 99 0 [(99, 902)]) ∧
    ∃ t, step (startAt 99 0 [(99, 902)]) = .next t ∧ t.pc = 100 ∧ (startAt 99 0 [(99, 902)]).pc ≠ 100 :=
  ⟨startAt_inv (by decide) (by decide) (by decide) (by decide), _, rfl, by decide, by decide⟩

theorem witness_TransactionsOfACycle : Inv (startAt 99 (-1) [(99, 300)]) ∧ AtFetch (startAt 99 (-1) [(99, 300)]) 300 ∧
    ∃ t, step (startAt 99 (-1) [(99, 300)]) = .next t :=
  ⟨startAt_inv (by decide) (by decide) (by decide) (by decide), ⟨rfl, by decide, by decide⟩, _, rfl⟩

theorem witness_WhenACycleFaults :
    (Inv (startAt 100 0 []) ∧ ∃ t, step (startAt 100 0 []) = .next t ∧ t.phase = .faulted) ∧
    (Inv (startAt 0 999 [(0, 101), (1, 1)]) ∧
      ∃ t, step (startAt 0 999 [(0, 101), (1, 1)]) = .next t ∧ t.phase = .faulted) ∧
    (Inv (startAt 0 998 [(0, 101), (1, 1)]) ∧
      ∃ t, step (startAt 0 998 [(0, 101), (1, 1)]) = .next t ∧ t.phase = .fetch) :=
  ⟨⟨startAt_inv (by decide) (by decide) (by decide) (by decide), _, rfl, by decide⟩,
    ⟨startAt_inv (by decide) (by decide) (by decide) (by decide), _, rfl, by decide⟩,
    startAt_inv (by decide) (by decide) (by decide) (by decide), _, rfl, by decide⟩

theorem witness_FaultsArePrecise :
    (∃ t, step (startAt 99 5 [(99, 499)]) = .next t ∧ (startAt 99 5 [(99, 499)]).phase = .fetch ∧ t.phase = .faulted ∧
      InRange (startAt 99 5 [(99, 499)]).pc 0 99) ∧
    (∃ t, step (waitingWith [.invalid]) = .next t ∧ (waitingWith [.invalid]).phase ≠ .faulted ∧ t.phase = .faulted ∧
      ¬ ((waitingWith [.invalid]).phase = .fetch ∧ InRange (waitingWith [.invalid]).pc 0 99)) :=
  ⟨⟨_, rfl, by decide, by decide, by decide⟩, _, rfl, by decide, by decide, by decide⟩

theorem witness_invariant_hypotheses : Inv (startAt 99 (-999) [(99, 902)]) ∧
    (∃ t, step (startAt 99 (-999) [(99, 902)]) = .next t) ∧
    (∃ t, phaseStep (startAt 99 (-999) [(99, 902)]) = .next t) ∧
    (∃ t, react (.deliver .exhausted) (startAt 99 (-999) [(99, 902)]) = .next t) :=
  ⟨startAt_inv (by decide) (by decide) (by decide) (by decide), ⟨_, rfl⟩, ⟨_, rfl⟩, _, rfl⟩

theorem witness_StatusOutputsTellHowARunStands : Inv (startAt 99 (-999) [(99, 902)]) ∧
    (waitingWith []).status.waitingInput = true :=
  ⟨startAt_inv (by decide) (by decide) (by decide) (by decide), by decide⟩

theorem witness_ReachableStatesMeetTheInvariant : Reachable (startWith [.value 42] [(0, 901)]) :=
  .boot (image := [901]) (answers := [.value 42]) rfl

theorem witness_UnobservableStateHasNoInfluence :
    (∃ t, step (afterFetch 902 (startAt 0 7 [])) = .next t ∧ t.out = [7]) ∧
    ((startAt 0 7 [(0, 902)]).phase ≠ .execute ∧ ∃ t, step (startAt 0 7 [(0, 902)]) = .next t) :=
  ⟨⟨_, rfl, rfl⟩, by decide, _, rfl⟩

theorem witness_ImageIsInMemoryAtTheStart : (List.replicate 100 (999 : Int)).length ≤ 100 ∧
    ∀ w ∈ List.replicate 100 (999 : Int), InRange w 0 999 :=
  ⟨by simp, fun w h => by rw [List.eq_of_mem_replicate h]; decide⟩

theorem witness_LoaderRefusesBadImages : 100 < (List.replicate 101 (0 : Int)).length ∧
    (([1000] : List Int).length ≤ 100 ∧ ∃ w ∈ ([1000] : List Int), ¬ InRange w 0 999) ∧
    100 < (tokens (renderImage (List.replicate 101 0))).length ∧
    ((tokens "1000".toList).length ≤ 100 ∧
      ∃ t ∈ tokens "1000".toList, ∀ w, parseInt t = some w → ¬ InRange w 0 999) :=
  ⟨by simp, by decide, by decide, by decide, "1000".toList, by decide, fun w h => by
    have e : parseInt "1000".toList = some 1000 := by decide
    rw [e] at h
    cases h
    decide⟩

theorem witness_AssembledImagesLoad : assemble "LDA X\n\nX DAT 3".toList = .ok [501, 3] := by decide

theorem witness_AssembledFormatReadsBack : ([999, 0] : List Int).length ≤ 100 ∧ ∀ w ∈ ([999, 0] : List Int), InRange w 0 999 := by
  decide

theorem witness_LabelsBindToTheirLines :
    collectLabels 0 [] (sourceLines "BRA END\nEND HLT".toList) = .ok [(['E', 'N', 'D'], 1)] ∧
    (sourceLines "BRA END\nEND HLT".toList)[1]? = some [['E', 'N', 'D'], ['H', 'L', 'T']] ∧
    definedLabel [['E', 'N', 'D'], ['H', 'L', 'T']] = some ['E', 'N', 'D'] ∧
    Labels.find [(['E', 'N', 'D'], 1)] ['E', 'N', 'D'] = some 1 := by decide

theorem witness_StoIsStaAndLongSourcesFail : upperCase "sta".toList = ['S', 'T', 'A'] ∧
    upperCase "StO".toList = ['S', 'T', 'O'] ∧
    100 < (sourceLines (renderImage (List.replicate 101 0))).length := ⟨by decide, by decide, by decide +kernel⟩

end Sys2Proof.Tests
end

section
/-! PROOFS. The memory's obligations (20_memory.md). -/

namespace Sys2Proof.Machine

/-- The read-after-write law as a rule of the port (R54): a read of the address just written goes on with the word
written, and records the access. -/
theorem memWrite_memRead_same {s : State} {a w : Int} (hm : Memory.wf s.mem) (ha : AddrValid a) (hw : WordFits w)
    (k : Int → State → State) :
    memWrite a w s (fun t => memRead a t k) =
      memWrite a w s (fun t => k w { t with port := t.port ++ [.read a w] }) := by
  have hread : (s.mem.poke a.toNat w).peek a.toNat = w := by rw [Memory.peek_poke hm, if_pos rfl]
  rw [memWrite_of_valid ha hw, memWrite_of_valid ha hw, memRead_of_valid ha, hread]

/-- Settles O7: the written memory reads as `Memory.peek_poke` says, at the written address and at every other. -/
theorem readAfterWriteReturnsTheWord : Obligations.ReadAfterWriteReturnsTheWord := by
  intro s a w hm ha hw
  refine ⟨memWrite_memRead_same hm ha hw, _, memWrite_of_valid ha hw s id, ?_, fun b hb => ?_⟩
  · exact (Memory.peek_poke hm _ _ w).trans (if_pos rfl)
  · exact (Memory.peek_poke hm _ b w).trans (if_neg hb)

end Sys2Proof.Machine
end

section
/-! PROOFS. The encoding's obligations (30_encoding.md). -/

namespace Sys2Proof.Machine

/-- Settles O5: the fetch ends in `afterFetch`, whose IR and AR are the quotient and the remainder of the word by
100. -/
theorem fetchSplitsTheWord : Obligations.FetchSplitsTheWord := by
  intro w s hw hs
  rw [hs.fetch_eq, afterFetch_ir, afterFetch_ar]
  exact ⟨rfl, rfl, opcode_in_range hw, operandOf_ok w, (Int.ediv_mul_add_emod w 100).symm⟩

end Sys2Proof.Machine
end

section
/-! PROOFS. The state machine's obligations (40_cycle.md). -/

namespace Sys2Proof.Machine

/-- The FETCH rows of R130: the single transition is the fetch. -/
theorem phaseStep_of_fetch {s : State} (hp : s.phase = .fetch) : phaseStep s = .next (fetch s) := by
  unfold phaseStep; rw [hp]

/-- The HALTED row of R130: no transition is left to take. -/
theorem phaseStep_of_halted {s : State} (hp : s.phase = .halted) : phaseStep s = .next s := by
  unfold phaseStep; rw [hp]

/-- Settles O10: the transition in FETCH is the fetch, which ends in `afterFetch` when PC names a cell and in the
fault OutOfRangeAddress when it names none. -/
theorem fetchReadsIncrementsAndSplits : Obligations.FetchReadsIncrementsAndSplits := by
  refine ⟨fun s hp => phaseStep_of_halted hp, fun s w hs => ?_, fun s hp hpc => ?_⟩
  · rw [phaseStep_of_fetch hs.1, hs.fetch_eq]
    rfl
  · have hinvalid : ¬ AddrValid s.pc := hpc
    rw [phaseStep_of_fetch hp, fetch_of_invalid hinvalid]
    rfl

end Sys2Proof.Machine
end

section
/-! PROOFS. HLT's obligation (41_halt.md). -/

namespace Sys2Proof.Machine

/-- A cycle that fetches a word with a meaning executes it on the state the fetch leaves (R141). -/
theorem AtFetch.step_eq_exec {s : State} {w : Int} {i : Instr} (h : AtFetch s w) (hd : decode w = .ok i) :
    step s = exec i (afterFetch w s) :=
  h.step_eq.trans (execute_of_decoded hd)

/-- The fetch of the word with opcode digit `d` and operand `a` leaves those digits in IR and AR (R80). -/
theorem afterFetch_of_digits {d a : Int} (h : OperandOk a) (s : State) :
    afterFetch (100 * d + a) s = { s with
      pc := s.pc + 1, ir := d, ar := a, phase := .execute, port := s.port ++ [.read s.pc (100 * d + a)] } := by
  rw [afterFetch, opcode_of_digits h, operand_of_digits h]

/-- A core in HALTED is given no further cycle (R137). -/
theorem step_of_halted {s : State} (hp : s.phase = .halted) : step s = .next s := by
  have hnf : s.phase ≠ .fetch := by simp [hp]
  rw [step_of_not_fetch hnf, phaseStep_of_halted hp]

/-- A run from a state that the step answers with itself stays there. -/
theorem run_of_step_self (M : Host.Core) {s : M.State} (h : M.step s = .next s) (n : Nat) :
    M.run n s = .next s := by
  induction n with
  | zero => rfl
  | succ n ih => rw [run_succ M h, ih]

/-- The words below 100 are HLT (R160). -/
theorem decode_hlt {a : Int} (h : OperandOk a) : decode a = .ok (.hlt a) := by
  simpa [decodeFields] using decode_of_digits (d := 0) h

/-- Settles O17: a word below 100 has the opcode digit 0, so the fused cycle is the fetch and then HLT's body, and its
end is in HALTED, where the step answers the same state. -/
theorem hltHalts : Obligations.HltHalts := by
  refine ⟨fun a ha => decode_hlt ha, exec_hlt, fun a s ha hs => ⟨_, ?_, rfl, fun n => ?_⟩, rfl⟩
  · have hfetch := afterFetch_of_digits (d := 0) ha s
    rw [mul_zero, zero_add] at hfetch
    rw [hs.step_eq_exec (decode_hlt ha), exec_hlt, hfetch]
  · exact run_of_step_self Sys2Proof.core (step_of_halted rfl) n

end Sys2Proof.Machine
end

section
/-! PROOFS. The obligation of the load (43_memory_ops.md R181). -/

namespace Sys2Proof.Machine

/-- The words 500 to 599 are LDA (R181). -/
theorem decode_lda {a : Int} (h : OperandOk a) : decode (500 + a) = .ok (.lda a) := decode_of_digits (d := 5) h

/-- LDA from a cell of memory: ACC takes the word there, with one read of the port (R181). -/
theorem exec_lda_of_valid {a : Int} (h : AddrValid a) (s : State) :
    exec (.lda a) s = .next { s with
      acc := s.mem.peek a.toNat, phase := .fetch, port := s.port ++ [.read a (s.mem.peek a.toNat)] } := by
  rw [exec_lda, memRead_of_valid h]
  rfl

/-- The whole cycle of LDA: the fetch's read and then the operand's, and ACC takes the word read (R181). -/
theorem AtFetch.step_lda {s : State} {a : Int} (h : AtFetch s (500 + a)) (ha : AddrValid a) :
    step s = .next { s with
      acc := s.mem.peek a.toNat, pc := s.pc + 1, ir := 5, ar := a
      port := s.port ++ [.read s.pc (500 + a), .read a (s.mem.peek a.toNat)] } := by
  have hphase : s.phase = .fetch := h.1
  have hir : (500 + a) / 100 = 5 := opcode_of_digits (d := 5) ha
  have har : (500 + a) % 100 = a := operand_of_digits (d := 5) ha
  rw [h.step_eq_exec (decode_lda ha), exec_lda_of_valid ha]
  simp [hphase, hir, har]

/-- A BRP whose condition holds only moves PC and ends the cycle (R192). -/
theorem exec_brp_of_nonneg {s : State} (h : 0 ≤ s.acc) (b : Int) :
    exec (.brp b) s = .next { s with pc := b, phase := .fetch } := by
  rw [exec_brp, decide_eq_true h, branchIf_true]

/-- Settles O23: the two-digit operand names a cell, so the read cannot fault; what it reads from a memory of words
is a word, hence not negative, and BRP's condition holds. -/
theorem ldaLoadsTheWord : Obligations.LdaLoadsTheWord := by
  refine ⟨fun a ha => decode_lda ha, fun a s ha => exec_lda_of_valid ha s, fun a s ha hs => hs.step_lda ha,
    fun a _ => Memory.peek_nil a.toNat, fun a b s ha hm => ⟨_, exec_lda_of_valid ha s, ?_⟩⟩
  obtain ⟨hnonneg, -⟩ := Memory.peek_fits hm a.toNat
  exact exec_brp_of_nonneg hnonneg b

end Sys2Proof.Machine
end

section
/-! PROOFS. The branches' obligations (44_branch.md R190 to R192). -/

namespace Sys2Proof.Machine

/-! ### What the three branches share -/

/-- What a branch writes: PC takes the target if the condition holds and keeps its value if not, and the cycle ends
(R133). -/
theorem branchIf_decide (c : Prop) [Decidable c] (a : Int) (s : State) :
    branchIf (decide c) a s = { s with pc := if c then a else s.pc, phase := .fetch } := by
  by_cases hc : c
  · rw [decide_eq_true hc, branchIf_true, if_pos hc]
  · rw [decide_eq_false hc, branchIf_false, if_neg hc]

/-- The whole cycle of an instruction whose body is a branch on `c`: PC ends at the operand or at the address after the
fetch, and the fetch's read is the only transaction. -/
theorem AtFetch.step_branch {s : State} {d a : Int} {i : Instr} {c : Prop} [Decidable c]
    (h : AtFetch s (100 * d + a)) (ha : OperandOk a) (hd : decodeFields d a = .ok i)
    (hi : exec i (afterFetch (100 * d + a) s) = .next (branchIf (decide c) a (afterFetch (100 * d + a) s))) :
    step s = .next { s with
      pc := if c then a else s.pc + 1, ir := d, ar := a, port := s.port ++ [.read s.pc (100 * d + a)] } := by
  have hphase : s.phase = .fetch := h.1
  rw [h.step_eq_exec ((decode_of_digits ha).trans hd), hi, branchIf_decide, afterFetch_of_digits ha, hphase]

/-! ### BRA (R190) -/

/-- The words 600 to 699 are BRA. -/
theorem decode_bra {a : Int} (h : OperandOk a) : decode (600 + a) = .ok (.bra a) := decode_of_digits (d := 6) h

/-- The whole cycle of BRA: PC ends at the operand, from whatever address the word was fetched. -/
theorem AtFetch.step_bra {s : State} {a : Int} (h : AtFetch s (600 + a)) (ha : OperandOk a) :
    step s = .next { s with pc := a, ir := 6, ar := a, port := s.port ++ [.read s.pc (600 + a)] } :=
  h.step_branch (d := 6) (c := True) ha rfl (exec_bra a _)

/-- A BRA to its own address is fetched again after every cycle, so it stays there for any number of steps. -/
theorem run_of_bra_to_itself {a : Int} (ha : OperandOk a) (n : Nat) : ∀ {s : State}, AtFetch s (600 + a) → s.pc = a →
    ∃ t, Host.Core.run Sys2Proof.core n s = .next t ∧ t.pc = a ∧ t.phase = .fetch := by
  induction n with
  | zero => exact fun {s} hs hpc => ⟨s, rfl, hpc, hs.1⟩
  | succ n ih =>
    intro s hs hpc
    rw [core_run_succ (hs.step_bra ha)]
    obtain ⟨hphase, hvalid, hword⟩ := hs
    rw [hpc] at hvalid hword
    exact ih ⟨hphase, hvalid, hword⟩ rfl

/-- Settles O25: BRA is the branch whose condition is always true; the self-loop is an induction on the steps, since
the cycle changes no word of memory. -/
theorem braBranches : Obligations.BraBranches :=
  ⟨fun _ ha => decode_bra ha, exec_bra, fun _ _ ha hs => hs.step_bra ha,
    fun _ _ n ha hs hpc => run_of_bra_to_itself ha n hs hpc⟩

/-! ### BRZ (R191) -/

/-- The words 700 to 799 are BRZ. -/
theorem decode_brz {a : Int} (h : OperandOk a) : decode (700 + a) = .ok (.brz a) := decode_of_digits (d := 7) h

/-- A BRZ whose condition holds only moves PC and ends the cycle. -/
theorem exec_brz_of_zero {s : State} (h : s.acc = 0) (a : Int) :
    exec (.brz a) s = .next { s with pc := a, phase := .fetch } := by
  rw [exec_brz, decide_eq_true h, branchIf_true]

/-- A BRZ whose condition fails only ends the cycle. -/
theorem exec_brz_of_ne_zero {s : State} (h : s.acc ≠ 0) (a : Int) :
    exec (.brz a) s = .next { s with phase := .fetch } := by
  rw [exec_brz, decide_eq_false h, branchIf_false]

/-- Settles O26: BRZ is the branch on ACC = 0, and the fetch before it leaves ACC as it was. -/
theorem brzBranchesOnZero : Obligations.BrzBranchesOnZero :=
  ⟨fun _ ha => decode_brz ha, fun a _ hz => exec_brz_of_zero hz a, fun a _ hz => exec_brz_of_ne_zero hz a,
    fun a s ha hs => hs.step_branch (d := 7) (c := s.acc = 0) ha rfl (exec_brz a _)⟩

/-! ### BRP (R192) -/

/-- The words 800 to 899 are BRP. -/
theorem decode_brp {a : Int} (h : OperandOk a) : decode (800 + a) = .ok (.brp a) := decode_of_digits (d := 8) h

/-- A BRP whose condition fails only ends the cycle. -/
theorem exec_brp_of_neg {s : State} (h : s.acc < 0) (a : Int) :
    exec (.brp a) s = .next { s with phase := .fetch } := by
  rw [exec_brp, decide_eq_false (not_le.2 h), branchIf_false]

/-- No execute body writes IR (R32). -/
theorem exec_ir {i : Instr} {s t : State} (h : exec i s = .next t) : t.ir = s.ir := by
  cases exec_outcome h <;> rfl

/-- Over a memory of words only SUB can take a non-negative ACC below 0: ADD adds a word, LDA loads one, and every
other body keeps ACC. -/
theorem exec_acc_nonneg_or_sub {i : Instr} {s t : State} (hm : Memory.wordsFit s.mem) (hacc : 0 ≤ s.acc)
    (h : exec i s = .next t) : 0 ≤ t.acc ∨ ∃ a, i = .sub a := by
  have hword (k : Nat) : 0 ≤ s.mem.peek k := (Memory.peek_fits hm k).1
  cases exec_outcome h with
  | addFits => exact .inl (Int.add_nonneg hacc (hword _))
  | subFits => exact .inr ⟨_, rfl⟩
  | lda => exact .inl (hword _)
  | _ => exact .inl hacc

/-- The execute phase takes a non-negative ACC below 0 only with SUB's digit in IR. -/
theorem execute_acc_nonneg_or_sub {s t : State} (hm : Memory.wordsFit s.mem) (hacc : 0 ≤ s.acc)
    (h : execute s = .next t) : 0 ≤ t.acc ∨ t.ir = 2 := by
  obtain ⟨i, hdecode, hexec⟩ | ⟨-, rfl⟩ := execute_cases h
  · obtain hnonneg | ⟨a, rfl⟩ := exec_acc_nonneg_or_sub hm hacc hexec
    · exact .inl hnonneg
    · obtain ⟨hir, -⟩ := decodeFields_inv hdecode
      exact .inr ((exec_ir hexec).trans hir)
  · exact .inl hacc

/-- A step takes a non-negative ACC below 0 only as SUB or as INP's completion. -/
theorem step_acc_nonneg_or_sub_or_waiting {s t : State} (hm : Memory.wordsFit s.mem) (hacc : 0 ≤ s.acc)
    (h : step s = .next t) : 0 ≤ t.acc ∨ t.ir = 2 ∨ s.phase = .waitInput := by
  obtain ⟨-, -, hexec⟩ | ⟨-, -, rfl⟩ | ⟨-, hexec⟩ | ⟨hwait, -⟩ | ⟨hwait, -⟩ | ⟨-, rfl⟩ := step_cases h
  · exact (execute_acc_nonneg_or_sub (s := afterFetch _ s) hm hacc hexec).imp_right .inl
  · exact .inl hacc
  · exact (execute_acc_nonneg_or_sub hm hacc hexec).imp_right .inl
  · exact .inr (.inr hwait)
  · exact .inr (.inr hwait)
  · exact .inl hacc

/-- Settles O27: BRP is the branch on 0 ≤ ACC, and the last clause is what a step can do to a non-negative ACC. -/
theorem brpBranchesOnZeroOrPositive : Obligations.BrpBranchesOnZeroOrPositive :=
  ⟨fun _ ha => decode_brp ha, fun a _ hp => exec_brp_of_nonneg hp a, fun a _ hn => exec_brp_of_neg hn a,
    fun a s ha hs => hs.step_branch (d := 8) (c := 0 ≤ s.acc) ha rfl (exec_brp a _),
    fun _ _ hm hacc hstep hneg => (step_acc_nonneg_or_sub_or_waiting hm hacc hstep).resolve_left (not_le.2 hneg)⟩

end Sys2Proof.Machine
end

section
/-! PROOFS. The obligations of output and of the reserved I/O words (45_io.md R203, R205). -/

namespace Sys2Proof.Machine

/-- The whole cycle of an instruction whose body only leaves the output trace at `o` and ends: the rest of the change
is the fetch's (R131), whose read is the only transaction. -/
theorem AtFetch.step_of_exec_finish {s : State} {d a : Int} {i : Instr} {o : List Int} (h : AtFetch s (100 * d + a))
    (ha : OperandOk a) (hd : decodeFields d a = .ok i)
    (hi : exec i (afterFetch (100 * d + a) s) = .next (finish { afterFetch (100 * d + a) s with out := o })) :
    step s = .next { s with
      pc := s.pc + 1, ir := d, ar := a, out := o, port := s.port ++ [.read s.pc (100 * d + a)] } := by
  have hphase : s.phase = .fetch := h.1
  rw [h.step_eq_exec ((decode_of_digits ha).trans hd), hi, afterFetch_of_digits ha, finish, hphase]

/-! ### OUT (R203) -/

/-- The word 902 is OUT: its opcode digit is 9 and its selector 2. -/
theorem decode_out : decode 902 = .ok .out := rfl

/-- Settles O30: OUT's body appends ACC and ends the cycle, and the fetch before it leaves ACC and the output trace as
they were. -/
theorem outEmitsTheAccumulator : Obligations.OutEmitsTheAccumulator :=
  ⟨decode_out, exec_out, fun s hs => hs.step_of_exec_finish (d := 9) (a := 2) (by decide) rfl (exec_out _)⟩

/-! ### The reserved I/O words (R205) -/

/-- With the opcode digit 9, a selector that is neither INP's nor OUT's is reserved. -/
theorem decodeFields_ioReserved {a : Int} (hinp : a ≠ 1) (hout : a ≠ 2) :
    decodeFields 9 a = .ok (.ioReserved a) := by
  simp [decodeFields, hinp, hout]

/-- The words 900 and 903 to 999 are reserved. -/
theorem decode_ioReserved {a : Int} (h : OperandOk a) (hinp : a ≠ 1) (hout : a ≠ 2) :
    decode (900 + a) = .ok (.ioReserved a) :=
  (decode_of_digits (d := 9) h).trans (decodeFields_ioReserved hinp hout)

/-- Settles O31: the body of a reserved word only ends the cycle, so what the step changes is what the fetch
changes. -/
theorem reservedIoDoesNothing : Obligations.ReservedIoDoesNothing :=
  ⟨fun _ ha hinp hout => decode_ioReserved ha hinp hout, exec_ioReserved, fun a s ha hinp hout hs =>
    hs.step_of_exec_finish (d := 9) (o := s.out) ha (decodeFields_ioReserved hinp hout) (exec_ioReserved a _)⟩

end Sys2Proof.Machine
end

section
/-! PROOFS. The obligation of the start of a run (70_reset_and_hazards.md R255). -/

namespace Sys2Proof.Machine

/-- An image the loader accepts is filled in from address 0 of a memory of zeros (R253, R255). -/
theorem loadImage_of_fits {image : List Int} (hlen : image.length ≤ 100) (hw : ∀ w ∈ image, WordFits w) :
    loadImage image = .ok (fillFrom 0 image []) := by
  have hnotlong : ¬ Config.memSize < image.length := Nat.not_lt.2 hlen
  rw [loadImage, if_neg hnotlong, if_pos hw]

/-- An accepted image starts a run: the core is as after reset, over the memory filled with the image (R253). -/
theorem boot_of_fits {image : List Int} (hlen : image.length ≤ 100) (hw : ∀ w ∈ image, WordFits w)
    (answers : List Answer) :
    boot image answers = .ok { State.reset with mem := fillFrom 0 image [], input := answers } := by
  rw [boot, loadImage_of_fits hlen hw]

/-- The cells of an image filled in from address 0 of a memory of zeros: its words, then zeros (R255). -/
theorem peek_fillFrom_zero {image : List Int} (hlen : image.length ≤ 100) (hw : ∀ w ∈ image, WordFits w) :
    (∀ i, i < image.length → image[i]? = some ((fillFrom 0 image []).peek i)) ∧
    (∀ i, image.length ≤ i → (fillFrom 0 image []).peek i = 0) := by
  obtain ⟨-, -, -, hwords, habove⟩ :=
    fillFrom_spec image 0 [] (by omega) hw Memory.wf_nil Memory.wordsFit_nil
  rw [zero_add] at habove
  exact ⟨fun i hi => by simpa only [zero_add] using hwords i hi,
    fun i hi => (habove i hi).trans (Memory.peek_nil i)⟩

/-- Settles O46: the run starts over the memory the loader filled, in the phase and at the PC of reset. -/
theorem imageIsInMemoryAtTheStart : Obligations.ImageIsInMemoryAtTheStart := by
  intro image answers hlen hw
  obtain ⟨hwords, habove⟩ := peek_fillFrom_zero hlen hw
  exact ⟨_, boot_of_fits hlen hw answers, hwords, habove, rfl, rfl⟩

end Sys2Proof.Machine
end

section
/-! PROOFS. The encoding's round trip, its opcode map and its written-out words (30_encoding.md R80 to R84). -/

namespace Sys2Proof.Machine

/-- A word is its row's opcode digit and its operand (R80, R84). -/
theorem encode_eq_digits (i : Instr) : encode i = 100 * i.opcode + i.operand := by
  cases i <;> simp [encode, Instr.opcode, Instr.operand]

/-- What makes an instruction well-formed, whatever its row (R80, R86). -/
theorem wellFormed_iff (i : Instr) :
    i.wellFormed = true ↔ OperandOk i.operand ∧ ∀ a, i = .ioReserved a → a ≠ 1 ∧ a ≠ 2 := by
  cases i <;> simp [Instr.wellFormed, Instr.operand, OperandOk, InRange]

/-- The decoder on an instruction's own digits: only the reserved row has to stay off the selectors of INP and OUT
(R83). -/
theorem decodeFields_opcode_operand {i : Instr} (h : ∀ a, i = .ioReserved a → a ≠ 1 ∧ a ≠ 2) :
    decodeFields i.opcode i.operand = .ok i := by
  cases i with
  | ioReserved a =>
    obtain ⟨hinp, hout⟩ := h a rfl
    exact decodeFields_ioReserved hinp hout
  | _ => rfl

/-- Settles O2: the word is split back into the opcode digit and the operand, and the decoder answers the instruction
with these digits. -/
theorem decodeUndoesEncode : Obligations.DecodeUndoesEncode := by
  intro i hi
  obtain ⟨hoperand, hreserved⟩ := (wellFormed_iff i).1 hi
  rw [encode_eq_digits, decode_of_digits hoperand, decodeFields_opcode_operand hreserved]

/-- What decodes to an instruction is a word with that instruction's digits, whose operand is well-formed. -/
theorem decode_inv {w : Int} {i : Instr} (h : decode w = .ok i) :
    w / 100 = i.opcode ∧ w % 100 = i.operand ∧ i.wellFormed = true := by
  rw [decode_eq] at h
  obtain ⟨hir, har, hreserved⟩ := decodeFields_inv h
  exact ⟨hir, har, (wellFormed_iff i).2 ⟨har ▸ operandOf_ok w, hreserved⟩⟩

/-- Every word of [0, 999] decodes (R83). -/
theorem decode_ok {w : Int} (h : InRange w 0 999) : ∃ i, decode w = .ok i :=
  decodeFields_ok (w % 100) (opcode_in_range h)

/-- Settles O3: the instruction a word decodes to has the word's digits, and these make the word up. -/
theorem encodeUndoesDecode : Obligations.EncodeUndoesDecode := by
  intro w hw
  obtain ⟨i, hi⟩ := decode_ok hw
  obtain ⟨hir, har, hwf⟩ := decode_inv hi
  refine ⟨i, hi, hwf, ?_⟩
  rw [encode_eq_digits, ← hir, ← har]
  exact Int.mul_ediv_add_emod w 100

/-! ### The opcode map (R84) -/

/-- The row of the opcode map an instruction belongs to. -/
def rowOf (i : Instr) : OpcodeRow :=
  match i with
  | .inp => ⟨"INP", [(901, 901)]⟩
  | .out => ⟨"OUT", [(902, 902)]⟩
  | .ioReserved _ => ⟨"IO_RESERVED", [(900, 900), (903, 999)]⟩
  | i => ⟨i.mnemonic, [(100 * i.opcode, 100 * i.opcode + 99)]⟩

theorem rowOf_mem (i : Instr) : rowOf i ∈ opcodeTable := by
  cases i <;> simp [rowOf, opcodeTable, Instr.mnemonic, Instr.opcode]

theorem rowOf_mnemonic (i : Instr) : (rowOf i).mnemonic = i.mnemonic := by
  cases i <;> rfl

/-- A word is covered by the row of the instruction it decodes to. -/
theorem rowOf_covers {w : Int} {i : Instr} (h : decode w = .ok i) : (rowOf i).covers w = true := by
  obtain ⟨hir, har, hwf⟩ := decode_inv h
  obtain ⟨-, hreserved⟩ := (wellFormed_iff i).1 hwf
  cases i with
  | ioReserved a =>
    obtain ⟨hinp, hout⟩ := hreserved a rfl
    simp only [Instr.opcode, Instr.operand] at hir har
    simp [rowOf, OpcodeRow.covers]
    omega
  | _ =>
    simp only [Instr.opcode, Instr.operand] at hir har
    simp [rowOf, OpcodeRow.covers, Instr.opcode]
    omega

/-- Two rows whose ranges of words do not meet. -/
def RowsApart (q r : OpcodeRow) : Prop :=
  ∀ x ∈ q.wordRanges, ∀ y ∈ r.wordRanges, x.2 < y.1 ∨ y.2 < x.1

theorem RowsApart.symm {q r : OpcodeRow} (h : RowsApart q r) : RowsApart r q :=
  fun x hx y hy => (h y hy x hx).symm

/-- The ranges of the opcode map's rows do not meet. -/
theorem opcodeTable_apart : opcodeTable.Pairwise RowsApart := by
  unfold RowsApart
  decide

/-- No two rows of the opcode map cover one word. -/
theorem row_unique {q r : OpcodeRow} {w : Int} (hq : q ∈ opcodeTable) (hr : r ∈ opcodeTable)
    (hqw : q.covers w = true) (hrw : r.covers w = true) : q = r := by
  by_contra hne
  have : Std.Symm RowsApart := ⟨fun _ _ => RowsApart.symm⟩
  have hapart : RowsApart q r := opcodeTable_apart.forall hq hr hne
  obtain ⟨x, hx, hwx⟩ := List.any_eq_true.1 hqw
  obtain ⟨y, hy, hwy⟩ := List.any_eq_true.1 hrw
  have hinx := of_decide_eq_true hwx
  have hiny := of_decide_eq_true hwy
  have := hapart x hx y hy
  omega

/-- Settles O4: the decoded instruction's row covers the word, and rows that do not meet cover no word twice. -/
theorem everyWordIsInExactlyOneRow : Obligations.EveryWordIsInExactlyOneRow := by
  intro w hw
  obtain ⟨i, hi⟩ := decode_ok hw
  exact ⟨rowOf i, rowOf_mem i, rowOf_covers hi, fun q hq hqw => row_unique hq (rowOf_mem i) hqw (rowOf_covers hi),
    i, hi, (rowOf_mnemonic i).symm⟩

/-- Settles O1, by running the decoder on the 21 words of the table. -/
theorem writtenOutWordsDecode : Obligations.WrittenOutWordsDecode := by
  unfold Obligations.WrittenOutWordsDecode
  decide

end Sys2Proof.Machine
end

section
/-! PROOFS. The invariant's obligations (10_state.md R35): the updates of the state that keep it, and from them every
execute body, step, transition and event. -/

namespace Sys2Proof.Machine

/-! ### The updates of the state that keep the invariant -/

namespace Inv

variable {s : State}

/-- In a phase of a running core there is no fault record. -/
theorem no_fault (h : Inv s) (hp : s.phase ≠ .faulted) : s.fault = none := h.fault.2 hp

/-- Outside HALTED the flag HALTED is down. -/
theorem not_halted (h : Inv s) (hp : s.phase ≠ .halted) : s.halted = false := by
  rw [Bool.eq_false_iff]
  exact fun hh => hp (h.halted.1 hh)

/-- A running core may go back to FETCH. -/
theorem to_fetch (h : Inv s) (hh : s.phase ≠ .halted) (hf : s.phase ≠ .faulted) : Inv { s with phase := .fetch } :=
  { h with
    pcAhead := by simp
    halted := by simp [h.not_halted hh]
    fault := by simp [h.no_fault hf]
    waiting := by simp }

/-- A running core may halt. -/
theorem to_halted (h : Inv s) (hf : s.phase ≠ .faulted) : Inv { s with halted := true, phase := .halted } :=
  { h with
    pcAhead := by simp
    halted := by simp
    fault := by simp [h.no_fault hf]
    waiting := by simp }

/-- An instruction with INP's digits may wait. -/
theorem to_waitInput (h : Inv s) (hp : s.phase = .execute) (hir : s.ir = 9) (har : s.ar = 1) :
    Inv { s with phase := .waitInput } :=
  { h with
    pcAhead := fun _ => h.pcAhead (.inl hp)
    halted := by simp [h.not_halted (by simp [hp])]
    fault := by simp [h.no_fault (by simp [hp])]
    waiting := fun _ => ⟨hir, har⟩ }

/-- A core that is not halted may fault with a legal record. -/
theorem to_faulted (h : Inv s) (hp : s.phase ≠ .halted) {r : FaultRecord} (hr : r.legal) :
    Inv { s with fault := some r, phase := .faulted } :=
  { h with
    pcAhead := by simp
    halted := by simp [h.not_halted hp]
    fault := by simp
    faultRecord := by simpa using hr
    waiting := by simp }

theorem with_acc (h : Inv s) {r : Int} (hr : AccFits r) : Inv { s with acc := r } := { h with acc := hr }

/-- In FETCH, PC may be any address of memory. -/
theorem with_pc (h : Inv s) (hp : s.phase = .fetch) {a : Int} (ha : AddrValid a) : Inv { s with pc := a } :=
  { h with
    pc := ⟨ha.1, le_trans ha.2 (by decide)⟩
    pcAhead := by simp [hp] }

theorem with_input (h : Inv s) (q : List Answer) : Inv { s with input := q } := { h with }

theorem with_poke (h : Inv s) {a : Int} (ha : AddrValid a) {v : Int} (hv : WordFits v) :
    Inv { s with mem := s.mem.poke a.toNat v } :=
  { h with
    memForm := Memory.wf_poke h.memForm (by rw [addrValid_iff] at ha; omega) v
    memWords := Memory.wordsFit_poke h.memWords _ hv }

theorem with_emission (h : Inv s) {v : Int} (hv : AccFits v) : Inv { s with out := s.out ++ [v] } :=
  { h with
    out := by
      intro x hx
      rcases List.mem_append.1 hx with hx | hx
      · exact h.out x hx
      · rw [List.mem_singleton.1 hx]; exact hv }

theorem with_transaction (h : Inv s) {x : Transaction} (hx : x.legal) : Inv { s with port := s.port ++ [x] } :=
  { h with
    port := by
      intro y hy
      rcases List.mem_append.1 hy with hy | hy
      · exact h.port y hy
      · rw [List.mem_singleton.1 hy]; exact hx }

/-- A read of a cell is a transaction the port carries, since memory holds words. -/
theorem with_read (h : Inv s) {a : Int} (ha : AddrValid a) :
    Inv { s with port := s.port ++ [.read a (s.mem.peek a.toNat)] } :=
  h.with_transaction ⟨ha, Memory.peek_fits h.memWords _⟩

/-- The fetch of a word from PC: PC moves ahead, and IR and AR are the word's digits (R131). -/
theorem after_fetch (h : Inv s) (hp : s.phase = .fetch) (hv : AddrValid s.pc) :
    Inv (afterFetch (s.mem.peek s.pc.toNat) s) :=
  have hpc := (addrValid_iff s.pc).1 hv
  { h.with_read hv with
    pc := by rw [afterFetch_pc]; omega
    pcAhead := fun _ => by rw [afterFetch_pc]; omega
    ir := opcode_in_range (Memory.peek_fits h.memWords _)
    ar := operandOf_ok _
    halted := by simp [h.not_halted (by simp [hp])]
    fault := by simp [h.no_fault (by simp [hp])]
    waiting := by simp }

/-- The address an executing or waiting instruction was fetched from is an address of memory. -/
theorem fetchAddress_valid (h : Inv s) (hp : s.phase = .execute ∨ s.phase = .waitInput) : AddrValid (s.pc - 1) := by
  have hahead := h.pcAhead hp
  have hle := h.pc.2
  rw [addrValid_iff]
  omega

end Inv

/-! ### Fault records -/

/-- The record of a fault of an instruction: its kind's code, an address and a word of memory (R220). -/
theorem FaultRecord.legal_of_exec {kind : FaultKind} (hk : kind ≠ .outOfRangeAddress) {pc w : Int}
    (hpc : AddrValid pc) (hw : WordFits w) : FaultRecord.legal ⟨kind, kind.code, pc, some w⟩ :=
  ⟨rfl, by rw [if_neg hk]; exact ⟨hpc, w, rfl, hw⟩⟩

/-- A fault of an executing or waiting instruction keeps the invariant. -/
theorem Inv.raise_exec {s : State} (h : Inv s) (hp : s.phase = .execute ∨ s.phase = .waitInput) {kind : FaultKind}
    (hk : kind ≠ .outOfRangeAddress) {w : Int} (hw : WordFits w) : Inv (raiseExec kind w s) :=
  h.to_faulted (by rintro hh; simp [hh] at hp) (FaultRecord.legal_of_exec hk (h.fetchAddress_valid hp) hw)

/-! ### Every execute body, step, transition and event -/

/-- The execute body of the instruction that IR and AR hold keeps the invariant: every outcome is a chain of the updates
above. -/
theorem exec_keeps_inv {i : Instr} {s t : State} (h : Inv s) (hp : s.phase = .execute)
    (hd : decodeFields s.ir s.ar = .ok i) (ht : exec i s = .next t) : Inv t := by
  have hnh : s.phase ≠ .halted := by simp [hp]
  have hnf : s.phase ≠ .faulted := by simp [hp]
  have hfetch : Inv { s with phase := .fetch } := h.to_fetch hnh hnf
  obtain ⟨hir, har, -⟩ := decodeFields_inv hd
  have hop : AddrValid i.operand := by rw [← har]; exact h.ar
  have hword (d : Int) (hd : InRange d 0 9) : WordFits (100 * d + i.operand) := by
    rw [addrValid_iff] at hop; rw [wordFits_iff]; omega
  have hpeek (k : Nat) : AccFits (s.mem.peek k) := by
    have := Memory.peek_fits h.memWords k
    rw [wordFits_iff] at this; rw [accFits_iff]; omega
  cases exec_outcome ht with
  | hlt => exact h.to_halted hnf
  | addFits hv hr => exact (hfetch.with_read hv).with_acc hr
  | addOverflow hv =>
    exact (h.with_read hv).raise_exec (.inl hp) (kind := .accumulatorOverflow) (by decide) (hword 1 (by decide))
  | subFits hv hr => exact (hfetch.with_read hv).with_acc hr
  | subOverflow hv =>
    exact (h.with_read hv).raise_exec (.inl hp) (kind := .accumulatorOverflow) (by decide) (hword 2 (by decide))
  | staFits hv hr => exact (hfetch.with_poke hv hr).with_transaction ⟨hv, hr⟩
  | staOutOfRange => exact h.raise_exec (.inl hp) (kind := .wordOutOfRange) (by decide) (hword 3 (by decide))
  | invalidOpcode => exact h.raise_exec (.inl hp) (kind := .invalidOpcode) (by decide) (hword 4 (by decide))
  | lda hv => exact (hfetch.with_read hv).with_acc (hpeek _)
  | addBadAddress hv | subBadAddress hv | staBadAddress hv | ldaBadAddress hv => exact absurd hop hv
  | bra | brzTaken | brpTaken => exact hfetch.with_pc rfl hop
  | brzNotTaken | brpNotTaken | ioReserved => exact hfetch
  | inp => exact h.to_waitInput hp hir har
  | out => exact hfetch.with_emission h.acc

/-- The execute phase keeps the invariant: IR holds a digit, so it runs the decoded instruction. -/
theorem execute_keeps_inv {s t : State} (h : Inv s) (hp : s.phase = .execute) (ht : execute s = .next t) : Inv t := by
  obtain ⟨i, hd, hexec⟩ | ⟨hnodigit, -⟩ := execute_cases ht
  · exact exec_keeps_inv h hp hd hexec
  · exact absurd h.ir hnodigit

/-- A fetch with PC past the end keeps the invariant: PC is then 100 (R132). -/
theorem Inv.bad_fetch {s : State} (h : Inv s) (hp : s.phase = .fetch) (hv : ¬ AddrValid s.pc) :
    Inv (raise .outOfRangeAddress s.pc none s) := by
  have hpc : s.pc = 100 := by
    have := h.pc
    rw [addrValid_iff] at hv
    omega
  exact h.to_faulted (by simp [hp]) ⟨rfl, by simp [hpc]⟩

/-- An answer in WAIT_INPUT keeps the invariant (R202). -/
theorem Inv.answer_input {s : State} (h : Inv s) (hp : s.phase = .waitInput) (answer : Answer) :
    Inv (answerInput answer s) := by
  obtain ⟨v, -, hfits, heq⟩ | ⟨kind, hk, heq⟩ := answerInput_cases answer s <;> rw [heq]
  · exact (h.to_fetch (by simp [hp]) (by simp [hp])).with_acc hfits
  · exact h.raise_exec (.inr hp) hk (by decide)

/-- Settles O39: a step is a fetch and an execute body, a fault at the fetch, an execute body, an answer, or nothing. -/
theorem everyStepKeepsTheInvariant : Obligations.EveryStepKeepsTheInvariant := by
  intro s t h ht
  obtain ⟨hp, hv, hexec⟩ | ⟨hp, hv, rfl⟩ | ⟨hp, hexec⟩ | ⟨-, -, rfl⟩ | ⟨hp, answer, rest, -, rfl⟩ | ⟨-, rfl⟩ :=
    step_cases ht
  · exact execute_keeps_inv (h.after_fetch hp hv) rfl hexec
  · exact h.bad_fetch hp hv
  · exact execute_keeps_inv h hp hexec
  · exact h
  · exact (h.with_input rest).answer_input hp answer
  · exact h

/-- A transition of R130 keeps the invariant: in FETCH it is the fetch, and in any other phase the step. -/
theorem phaseStep_keeps_inv {s t : State} (h : Inv s) (ht : phaseStep s = .next t) : Inv t := by
  by_cases hp : s.phase = .fetch
  · rw [phaseStep_of_fetch hp] at ht
    cases ht
    by_cases hv : AddrValid s.pc
    · rw [fetch_of_valid hv]; exact h.after_fetch hp hv
    · rw [fetch_of_invalid hv]; exact h.bad_fetch hp hv
  · rw [← step_of_not_fetch hp] at ht
    exact everyStepKeepsTheInvariant s t h ht

/-- The registers' reset values meet the invariant, over any memory of words and any past of the devices that does
(R34, R250). -/
theorem inv_coreReset {s : State} (hform : Memory.wf s.mem) (hwords : Memory.wordsFit s.mem)
    (hout : ∀ v ∈ s.out, AccFits v) (hport : ∀ x ∈ s.port, x.legal) : Inv s.coreReset where
  pc := (by decide : InRange 0 0 100)
  pcAhead := by simp
  ir := (by decide : InRange 0 0 9)
  ar := (by decide : InRange 0 0 99)
  acc := (by decide : AccFits 0)
  memForm := hform
  memWords := hwords
  halted := by simp
  fault := by simp
  faultRecord := by simp
  waiting := by simp
  out := hout
  port := hport

/-- Settles O40: a reset sets the registers and a delivered answer touches the queue alone; a step is O39. -/
theorem eventsAndTransitionsKeepTheInvariant : Obligations.EventsAndTransitionsKeepTheInvariant := by
  refine ⟨fun e s t h ht => ?_, fun s t h ht => phaseStep_keeps_inv h ht⟩
  cases e with
  | tick => exact everyStepKeepsTheInvariant s t h ht
  | reset => cases ht; exact inv_coreReset h.memForm h.memWords h.out h.port
  | deliver answer => cases ht; exact h.with_input _

/-- A run starts in the state after reset, over a memory of words in canonical form. -/
theorem inv_start {m : Memory} (hform : Memory.wf m) (hwords : Memory.wordsFit m) (answers : List Answer) :
    Inv { State.reset with mem := m, input := answers } :=
  inv_coreReset (s := { State.reset with mem := m, input := answers }) hform hwords
    (by simp [State.reset]) (by simp [State.reset])

/-- Settles O38: the state after reset is the start of a run over an empty memory. -/
theorem resetMeetsTheInvariant : Obligations.ResetMeetsTheInvariant :=
  inv_start Memory.wf_nil Memory.wordsFit_nil []

/-- The loader accepts only an image that fits into memory and holds words (R256, R257). -/
theorem loadImage_inv {image : List Int} {m : Memory} (h : loadImage image = .ok m) :
    image.length ≤ 100 ∧ (∀ w ∈ image, WordFits w) ∧ m = fillFrom 0 image [] := by
  unfold loadImage at h
  split at h
  · cases h
  · next hlen =>
    split at h
    · next hwords => cases h; exact ⟨Nat.not_lt.1 hlen, hwords, rfl⟩
    · cases h

/-- A run starts only with a memory the loader made (R253). -/
theorem boot_inv {image : List Int} {answers : List Answer} {s : State} (h : boot image answers = .ok s) :
    ∃ m, loadImage image = .ok m ∧ s = { State.reset with mem := m, input := answers } := by
  unfold boot at h
  split at h
  · next m hm => cases h; exact ⟨m, hm, rfl⟩
  · cases h

/-- Settles O41, by induction on the events: the start of a run over a filled memory meets the invariant, and every
event keeps it. -/
theorem reachableStatesMeetTheInvariant : Obligations.ReachableStatesMeetTheInvariant := by
  intro s hs
  induction hs with
  | boot hboot =>
    obtain ⟨m, hm, rfl⟩ := boot_inv hboot
    obtain ⟨hlen, hwords, rfl⟩ := loadImage_inv hm
    obtain ⟨hform, hfits, -⟩ := fillFrom_spec _ 0 [] (by omega) hwords Memory.wf_nil Memory.wordsFit_nil
    exact inv_start hform hfits _
  | react _ hreact ih => exact eventsAndTransitionsKeepTheInvariant.1 _ _ _ ih hreact

/-- Settles O42: the invariant ties the fault record to FAULTED and the flag HALTED to the phase HALTED, and a core is
in one phase. -/
theorem statusOutputsTellHowARunStands : Obligations.StatusOutputsTellHowARunStands := by
  intro s h
  have hfault : s.fault ≠ none ↔ s.phase = .faulted := by rw [Ne, h.fault, not_not]
  simp only [State.status, runEnded, normalHalt, decide_eq_true_eq, h.halted, hfault, decide_eq_false_iff_not]
  refine ⟨trivial, ?_, trivial, trivial, ?_⟩
  · rintro ⟨hh, hf⟩; simp [hh] at hf
  · rintro hw; simp [hw]

end Sys2Proof.Machine
end

section
/-! PROOFS. The state machine's obligations: totality, the transition table, cycles against transitions, and the phases
that only reset leaves (40_cycle.md R130 to R142). -/

namespace Sys2Proof.Machine

/-! ### Every state has a next state -/

theorem exec_next (i : Instr) (s : State) : ∃ t, exec i s = .next t := by
  cases i <;> exact ⟨_, rfl⟩

theorem execute_next (s : State) : ∃ t, execute s = .next t := by
  by_cases hr : InRange s.ir 0 9
  · obtain ⟨i, hi⟩ := decodeFields_ok s.ar hr
    rw [execute_of_decoded hi]
    exact exec_next i s
  · exact ⟨_, execute_of_no_digit hr⟩

/-! The rows of R130 for the phases of a core that is not about to fetch. -/

theorem phaseStep_of_execute {s : State} (hp : s.phase = .execute) : phaseStep s = execute s := by
  unfold phaseStep; rw [hp]

theorem phaseStep_of_waitInput {s : State} (hp : s.phase = .waitInput) : phaseStep s = .next (completeInput s) := by
  unfold phaseStep; rw [hp]

theorem phaseStep_of_faulted {s : State} (hp : s.phase = .faulted) : phaseStep s = .next s := by
  unfold phaseStep; rw [hp]

theorem phaseStep_next (s : State) : ∃ t, phaseStep s = .next t := by
  cases hp : s.phase with
  | fetch => exact ⟨_, phaseStep_of_fetch hp⟩
  | execute => rw [phaseStep_of_execute hp]; exact execute_next s
  | waitInput => exact ⟨_, phaseStep_of_waitInput hp⟩
  | halted => exact ⟨_, phaseStep_of_halted hp⟩
  | faulted => exact ⟨_, phaseStep_of_faulted hp⟩

/-- A step is one transition, or the fetch and the execute phase it leads to (R141). -/
theorem step_eq_phaseStep_or_fused (s : State) :
    step s = phaseStep s ∨
    (s.phase = .fetch ∧ AddrValid s.pc ∧ phaseStep s = .next (afterFetch (s.mem.peek s.pc.toNat) s) ∧
      step s = phaseStep (afterFetch (s.mem.peek s.pc.toNat) s)) := by
  by_cases hp : s.phase = .fetch
  · by_cases hv : AddrValid s.pc
    · refine .inr ⟨hp, hv, ?_, ?_⟩
      · rw [phaseStep_of_fetch hp, fetch_of_valid hv]
      · rw [step_of_fetch hp hv, phaseStep_of_execute rfl]
    · rw [step_of_bad_fetch hp hv, phaseStep_of_fetch hp, fetch_of_invalid hv]
      exact .inl rfl
  · exact .inl (step_of_not_fetch hp)

theorem step_next (s : State) : ∃ t, step s = .next t := by
  obtain heq | ⟨-, -, -, heq⟩ := step_eq_phaseStep_or_fused s <;> rw [heq] <;> exact phaseStep_next _

/-- Settles O16: every arm of the dispatch and of the transition table answers a next state. -/
theorem everyStateHasANextState : Obligations.EveryStateHasANextState := by
  refine ⟨step_next, fun e s => ?_⟩
  cases e with
  | tick => exact step_next s
  | reset => exact ⟨_, rfl⟩
  | deliver answer => exact ⟨_, rfl⟩

/-! ### The phase each row leads to -/

/-- The phase an execute body ends in is the one its row of R130 names. -/
theorem exec_phase {i : Instr} {s t : State} (hir : s.ir = i.opcode) (har : s.ar = i.operand)
    (hreserved : ∀ a, i = .ioReserved a → a ≠ 1 ∧ a ≠ 2) (h : exec i s = .next t) :
    t.phase = phaseAfterExecute s := by
  unfold phaseAfterExecute
  cases exec_outcome h with
  | addFits hv hr | addOverflow hv hr | subFits hv hr | subOverflow hv hr | staFits hv hr =>
    simp only [hir, har, Instr.opcode, Instr.operand]
    simp [hv, hr]
  | addBadAddress hv | subBadAddress hv | staBadAddress hv | lda hv | ldaBadAddress hv =>
    simp only [hir, har, Instr.opcode, Instr.operand]
    simp [hv]
  | staOutOfRange hr => simp [hir, Instr.opcode, hr]
  | ioReserved a => simp [hir, har, Instr.opcode, Instr.operand, (hreserved a rfl).1]
  | _ => simp [hir, har, Instr.opcode, Instr.operand]

/-- An opcode that is no digit faults (R85, D34). -/
theorem phaseAfterExecute_of_no_digit {s : State} (h : ¬ InRange s.ir 0 9) : phaseAfterExecute s = .faulted := by
  unfold phaseAfterExecute
  iterate 7 rw [if_neg (by omega)]

/-- The EXECUTE rows of R130. -/
theorem execute_phase {s t : State} (h : execute s = .next t) : t.phase = phaseAfterExecute s := by
  obtain ⟨i, hd, hexec⟩ | ⟨hnodigit, rfl⟩ := execute_cases h
  · obtain ⟨hir, har, hreserved⟩ := decodeFields_inv hd
    exact exec_phase hir har hreserved hexec
  · rw [raiseExec_phase, phaseAfterExecute_of_no_digit hnodigit]

theorem answerInput_of_fits {v : Int} (h : InputFits v) (s : State) :
    answerInput (.value v) s = finishWith v s := if_pos h

theorem answerInput_of_not_fits {v : Int} (h : ¬ InputFits v) (s : State) :
    answerInput (.value v) s = raiseExec .invalidInput 901 s := if_neg h

/-- The WAIT_INPUT rows of R130. -/
theorem completeInput_phase {s : State} (hp : s.phase = .waitInput) : (completeInput s).phase = phaseAfterWait s := by
  unfold phaseAfterWait
  cases hi : s.input with
  | nil => rw [completeInput_nil hi, hp]
  | cons answer rest =>
    rw [completeInput_cons hi]
    cases answer with
    | value v =>
      by_cases hv : InputFits v
      · rw [answerInput_of_fits hv]; exact (if_pos hv).symm
      · rw [answerInput_of_not_fits hv]; exact (if_neg hv).symm
    | invalid => rfl
    | exhausted => rfl

/-! What the EXECUTE rows say of the phases that are not FETCH and FAULTED. -/

theorem phaseAfterExecute_ne_execute (s : State) : phaseAfterExecute s ≠ .execute := by
  unfold phaseAfterExecute
  split_ifs <;> decide

theorem ir_of_phaseAfterExecute_halted {s : State} (h : phaseAfterExecute s = .halted) : s.ir = 0 := by
  unfold phaseAfterExecute at h
  split_ifs at h
  assumption

theorem inp_of_phaseAfterExecute_waitInput {s : State} (h : phaseAfterExecute s = .waitInput) :
    s.ir = 9 ∧ s.ar = 1 := by
  unfold phaseAfterExecute at h
  split_ifs at h with _ _ _ _ _ _ _ _ _ _ h9 h1
  exact ⟨h9, h1⟩

/-- No answer leads to EXECUTE, and only the lack of one keeps the core waiting. -/
theorem phaseAfterWait_cases (s : State) :
    (s.input = [] ∧ phaseAfterWait s = .waitInput) ∨
    (s.input ≠ [] ∧ (phaseAfterWait s = .fetch ∨ phaseAfterWait s = .faulted)) := by
  unfold phaseAfterWait
  split
  · next hi => exact .inl ⟨hi, rfl⟩
  · next v _ hi => exact .inr ⟨by simp [hi], by split_ifs <;> simp⟩
  · next hi => exact .inr ⟨by simp [hi], .inr rfl⟩
  · next hi => exact .inr ⟨by simp [hi], .inr rfl⟩

/-- Where a core in HALTED or FAULTED goes, by a transition or a step: nowhere (R137). -/
theorem phaseStep_of_ended {s : State} (hp : s.phase = .halted ∨ s.phase = .faulted) : phaseStep s = .next s := by
  obtain hp | hp := hp
  · exact phaseStep_of_halted hp
  · exact phaseStep_of_faulted hp

theorem step_of_ended {s : State} (hp : s.phase = .halted ∨ s.phase = .faulted) : step s = .next s := by
  rw [step_of_not_fetch (by rintro hf; simp [hf] at hp), phaseStep_of_ended hp]

/-- No execute body writes IR, AR or the input queue (R32). -/
theorem exec_keeps_ir_ar_input {i : Instr} {s t : State} (h : exec i s = .next t) :
    t.ir = s.ir ∧ t.ar = s.ar ∧ t.input = s.input := by
  cases exec_outcome h <;> exact ⟨rfl, rfl, rfl⟩

/-- The execute phase writes neither IR nor AR. -/
theorem execute_ir_ar {s t : State} (h : execute s = .next t) : t.ir = s.ir ∧ t.ar = s.ar := by
  obtain ⟨i, -, hexec⟩ | ⟨-, rfl⟩ := execute_cases h
  · obtain ⟨hir, har, -⟩ := exec_keeps_ir_ar_input hexec
    exact ⟨hir, har⟩
  · exact ⟨rfl, rfl⟩

/-- R130's rows for a single transition. -/
theorem phaseStep_follows_table {s t : State} (h : phaseStep s = .next t) :
    (s.phase = .fetch → AddrValid s.pc → t.phase = .execute) ∧
    (s.phase = .fetch → ¬ AddrValid s.pc → t.phase = .faulted) ∧
    (s.phase = .execute → t.phase = phaseAfterExecute s) ∧
    (s.phase = .waitInput → t.phase = phaseAfterWait s) ∧
    (s.phase = .waitInput → s.input = [] → t = s) ∧
    (s.phase = .halted ∨ s.phase = .faulted → t = s) := by
  refine ⟨fun hp hv => ?_, fun hp hv => ?_, fun hp => ?_, fun hp => ?_, fun hp hi => ?_, fun hp => ?_⟩
  · rw [phaseStep_of_fetch hp, fetch_of_valid hv] at h; cases h; rfl
  · rw [phaseStep_of_fetch hp, fetch_of_invalid hv] at h; cases h; rfl
  · rw [phaseStep_of_execute hp] at h; exact execute_phase h
  · rw [phaseStep_of_waitInput hp] at h; cases h; exact completeInput_phase hp
  · rw [phaseStep_of_waitInput hp, completeInput_nil hi] at h; cases h; rfl
  · rw [phaseStep_of_ended hp] at h; cases h; rfl

/-- The phase a step from FETCH ends in, PC being an address of memory: the row of the word fetched. -/
theorem step_phase_of_fetch {s t : State} (h : step s = .next t) (hp : s.phase = .fetch) (hv : AddrValid s.pc) :
    t.phase = phaseAfterExecute (afterFetch (s.mem.peek s.pc.toNat) s) := by
  rw [step_of_fetch hp hv] at h
  exact execute_phase h

theorem step_phase_of_bad_fetch {s t : State} (h : step s = .next t) (hp : s.phase = .fetch) (hv : ¬ AddrValid s.pc) :
    t.phase = .faulted := by
  rw [step_of_bad_fetch hp hv] at h; cases h; rfl

/-- IR and AR after a step from FETCH, PC being an address of memory: the digits of the word fetched. -/
theorem step_ir_ar_of_fetch {s t : State} (h : step s = .next t) (hp : s.phase = .fetch) (hv : AddrValid s.pc) :
    t.ir = s.mem.peek s.pc.toNat / 100 ∧ t.ar = s.mem.peek s.pc.toNat % 100 := by
  rw [step_of_fetch hp hv] at h
  exact execute_ir_ar h

/-- A transition leads to EXECUTE only from FETCH. -/
theorem phaseStep_phase_ne_execute {s t : State} (h : phaseStep s = .next t) (hp : s.phase ≠ .fetch) :
    t.phase ≠ .execute := by
  obtain ⟨-, -, hexecute, hwait, -, hended⟩ := phaseStep_follows_table h
  cases hphase : s.phase with
  | fetch => contradiction
  | execute => rw [hexecute hphase]; exact phaseAfterExecute_ne_execute s
  | waitInput =>
    rw [hwait hphase]
    obtain ⟨-, hw⟩ | ⟨-, hw | hw⟩ := phaseAfterWait_cases s <;> simp [hw]
  | halted => rw [hended (.inl hphase), hphase]; decide
  | faulted => rw [hended (.inr hphase), hphase]; decide

/-- A step never ends between a fetch and its execute (R141). -/
theorem step_phase_ne_execute {s t : State} (h : step s = .next t) : t.phase ≠ .execute := by
  by_cases hp : s.phase = .fetch
  · by_cases hv : AddrValid s.pc
    · rw [step_phase_of_fetch h hp hv]; exact phaseAfterExecute_ne_execute _
    · rw [step_phase_of_bad_fetch h hp hv]; decide
  · rw [step_of_not_fetch hp] at h
    exact phaseStep_phase_ne_execute h hp

/-- Settles O14: a step outside FETCH is its one transition, and one from FETCH takes the FETCH row and the EXECUTE row
of the word fetched. -/
theorem stepFollowsThePhaseTable : Obligations.StepFollowsThePhaseTable := by
  refine ⟨fun s t h => phaseStep_follows_table h, fun s t h => ?_⟩
  have hrow (hp : s.phase ≠ .fetch) := phaseStep_follows_table (step_of_not_fetch hp ▸ h)
  refine ⟨step_phase_of_fetch h, step_phase_of_bad_fetch h, fun hp => ?_, fun hp => ?_, fun hp hw => ?_, fun hp => ?_,
    step_phase_ne_execute h, fun hp hh => ?_, fun hp hw => ?_⟩
  · obtain ⟨-, -, hexecute, -⟩ := hrow (by simp [hp])
    exact hexecute hp
  · obtain ⟨-, -, -, hwait, -⟩ := hrow (by simp [hp])
    exact hwait hp
  · obtain ⟨-, -, -, hwait, hhold, -⟩ := hrow (by simp [hp])
    rw [hwait hp] at hw
    obtain ⟨hi, -⟩ | ⟨-, hgo | hgo⟩ := phaseAfterWait_cases s
    · exact ⟨hhold hp hi, hi⟩
    · simp [hgo] at hw
    · simp [hgo] at hw
  · rw [step_of_ended hp] at h; cases h; rfl
  · by_cases hv : AddrValid s.pc
    · rw [step_phase_of_fetch h hp hv] at hh
      exact (step_ir_ar_of_fetch h hp hv).1.trans (ir_of_phaseAfterExecute_halted hh)
    · simp [step_phase_of_bad_fetch h hp hv] at hh
  · by_cases hv : AddrValid s.pc
    · rw [step_phase_of_fetch h hp hv] at hw
      obtain ⟨hir, har⟩ := inp_of_phaseAfterExecute_waitInput hw
      obtain ⟨htir, htar⟩ := step_ir_ar_of_fetch h hp hv
      exact ⟨htir.trans hir, htar.trans har⟩
    · simp [step_phase_of_bad_fetch h hp hv] at hw

/-- Settles O15: HALTED and FAULTED answer the same state to a step, and a delivered answer only joins the queue. -/
theorem onlyResetLeavesHaltedAndFaulted : Obligations.OnlyResetLeavesHaltedAndFaulted := by
  refine ⟨fun n s hp => run_of_step_self Sys2Proof.core (step_of_ended hp) n, fun e s t hp hne h => ?_⟩
  cases e with
  | tick => rw [react, step_of_ended hp] at h; cases h; rfl
  | reset => contradiction
  | deliver answer => cases h; rfl

/-! ### Cycles and single transitions (R141) -/

/-- A run of one step more begins with a step. -/
theorem run_succ_inv {M : Host.Core} {n : Nat} {s t : M.State} (h : M.run (n + 1) s = .next t) :
    ∃ u, M.step s = .next u ∧ M.run n u = .next t := by
  rw [Host.Core.run] at h
  split at h
  · next u hu => exact ⟨u, hu, h⟩
  · cases h
  · cases h

/-- A run of cycles is a run of transitions, each cycle being one transition or two. -/
theorem phaseCore_run_of_core_run (n : Nat) : ∀ {s t : State}, Host.Core.run Sys2Proof.core n s = .next t →
    ∃ m, n ≤ m ∧ m ≤ 2 * n ∧ Host.Core.run phaseCore m s = .next t := by
  induction n with
  | zero => exact fun h => ⟨0, le_rfl, le_rfl, h⟩
  | succ n ih =>
    intro s t h
    obtain ⟨u, hstep, hrun⟩ := run_succ_inv h
    obtain ⟨m, hlo, hhi, hm⟩ := ih hrun
    have hstep : step s = .next u := hstep
    obtain hone | ⟨-, -, hfetch, htwo⟩ := step_eq_phaseStep_or_fused s
    · exact ⟨m + 1, by omega, by omega, (phaseCore_run_succ (hone ▸ hstep)).trans hm⟩
    · refine ⟨m + 2, by omega, by omega, ?_⟩
      rw [phaseCore_run_succ hfetch, phaseCore_run_succ (htwo ▸ hstep), hm]

/-- A run of transitions that neither begins nor ends in EXECUTE is a run of cycles: such a run takes a fetch's
transition only together with the execute's. -/
theorem core_run_of_phaseCore_run (m : Nat) : ∀ {s t : State}, s.phase ≠ .execute → t.phase ≠ .execute →
    Host.Core.run phaseCore m s = .next t → ∃ n, n ≤ m ∧ Host.Core.run Sys2Proof.core n s = .next t := by
  induction m using Nat.strong_induction_on with
  | _ m ih =>
    intro s t hs ht h
    cases m with
    | zero => exact ⟨0, le_rfl, h⟩
    | succ m =>
      obtain ⟨u, hu, hrun⟩ := run_succ_inv h
      have hu : phaseStep s = .next u := hu
      obtain ⟨v, hv⟩ := step_next s
      have hvexec : v.phase ≠ .execute := step_phase_ne_execute hv
      obtain hone | ⟨-, -, hfetch, htwo⟩ := step_eq_phaseStep_or_fused s
      · obtain rfl : u = v := by rw [hone, hu] at hv; cases hv; rfl
        obtain ⟨n, hn, hn'⟩ := ih m (by omega) hvexec ht hrun
        exact ⟨n + 1, by omega, (core_run_succ hv).trans hn'⟩
      · obtain rfl : u = afterFetch (s.mem.peek s.pc.toNat) s := by rw [hu] at hfetch; cases hfetch; rfl
        cases m with
        | zero => cases hrun; exact absurd (afterFetch_phase _ s) ht
        | succ m =>
          rw [phaseCore_run_succ (htwo ▸ hv)] at hrun
          obtain ⟨n, hn, hn'⟩ := ih m (by omega) hvexec ht hrun
          exact ⟨n + 1, by omega, (core_run_succ hv).trans hn'⟩

/-- Settles O13, by induction on the length of the run in either direction. -/
theorem cyclesAndPhaseTransitionsAgree : Obligations.CyclesAndPhaseTransitionsAgree :=
  ⟨fun n _ _ h => phaseCore_run_of_core_run n h, fun m _ _ hs ht h => core_run_of_phaseCore_run m hs ht h⟩

end Sys2Proof.Machine
end

section
/-! PROOFS. The canonical form of memory and the accesses the port refuses (20_memory.md R50, R55). -/

namespace Sys2Proof.Machine

/-! ### A memory in canonical form is what it reads as (log 1) -/

/-- A listed cell is read at its address, if the addresses strictly rise. -/
theorem Memory.peek_of_mem {m : Memory} (hm : m.Pairwise fun c d => c.1 < d.1) {c : MemCell} (hc : c ∈ m) :
    m.peek c.1 = c.2 := by
  induction m with
  | nil => cases hc
  | cons d m ih =>
    obtain ⟨k, w⟩ := d
    obtain ⟨hlt, hm'⟩ := List.pairwise_cons.1 hm
    rw [Memory.peek_cons_pair]
    rcases List.mem_cons.1 hc with rfl | hc
    · exact if_pos rfl
    · rw [if_neg (hlt c hc).ne, ih hm' hc]

/-- An address that reads as no unlisted one is listed, with what it reads. -/
theorem Memory.mem_of_peek_ne_zero {m : Memory} {a : Nat} (h : m.peek a ≠ 0) : (a, m.peek a) ∈ m := by
  induction m with
  | nil => exact absurd (Memory.peek_nil a) h
  | cons d m ih =>
    obtain ⟨k, w⟩ := d
    rw [Memory.peek_cons_pair] at h ⊢
    by_cases hk : k = a
    · rw [if_pos hk, hk]; exact List.mem_cons_self
    · rw [if_neg hk] at h ⊢; exact List.mem_cons_of_mem _ (ih h)

/-- The cells a canonical memory lists are those that do not read 0. -/
theorem Memory.mem_iff_peek {m : Memory} (hm : Memory.wf m) (c : MemCell) : c ∈ m ↔ c.2 ≠ 0 ∧ m.peek c.1 = c.2 := by
  constructor
  · exact fun hc => ⟨(hm.2 c hc).2, Memory.peek_of_mem hm.1 hc⟩
  · rintro ⟨hne, hpeek⟩
    have hmem := Memory.mem_of_peek_ne_zero (hpeek ▸ hne : m.peek c.1 ≠ 0)
    rwa [hpeek] at hmem

/-- Settles O9: memories that read alike list the same cells, and a list with strictly rising addresses is determined by
its cells. -/
theorem equalReadsMeanEqualMemories : Obligations.EqualReadsMeanEqualMemories := by
  intro m n hm hn hpeek
  have : Std.Irrefl fun c d : MemCell => c.1 < d.1 := ⟨fun c => lt_irrefl c.1⟩
  have : Std.Antisymm fun c d : MemCell => c.1 < d.1 := ⟨fun _ _ hcd hdc => absurd hcd hdc.asymm⟩
  refine hm.1.eq_of_mem_iff hn.1 fun c => ?_
  rw [Memory.mem_iff_peek hm, Memory.mem_iff_peek hn, hpeek]

/-- Settles O8: the port checks the address before anything else. -/
theorem accessOutsideMemoryFaults : Obligations.AccessOutsideMemoryFaults :=
  fun s _ w ha => ⟨memRead_of_invalid ha s, memWrite_of_invalid ha w s⟩

end Sys2Proof.Machine
end

section
/-! PROOFS. The cycle and its faults: what a step runs, the fetch past the end, and the words that are no instruction
(40_cycle.md R132, R136, R141; 30_encoding.md R85). -/

namespace Sys2Proof.Machine

/-- Settles O11: the fetch checks PC before it reads (R132). -/
theorem fetchPastTheEndFaults : Obligations.FetchPastTheEndFaults :=
  fun _ hp hv => step_of_bad_fetch hp hv

/-- Settles O12: the fused step executes what the fetch leaves, and in EXECUTE the step is the execute phase. -/
theorem stepRunsTheDecodedInstruction : Obligations.StepRunsTheDecodedInstruction := by
  refine ⟨fun s w i hs hd => hs.step_eq_exec hd, fun s i hp hd => ?_⟩
  rw [step_of_not_fetch (by simp [hp]), phaseStep_of_execute hp, execute_of_decoded hd]

/-- A fault of the instruction just fetched names the address fetched from (R133, R220). -/
theorem raiseExec_afterFetch (kind : FaultKind) (x w : Int) (s : State) :
    raiseExec kind x (afterFetch w s) = faultedWith kind kind.code s.pc (some x) (afterFetch w s) := by
  simp [raiseExec, raise, faultedWith, fetchAddress]

/-- The whole cycle of an instruction whose body is a fault: the fetch's effects and the fault's record. -/
theorem AtFetch.step_of_exec_fault {s : State} {d a : Int} {i : Instr} {kind : FaultKind} (h : AtFetch s (100 * d + a))
    (ha : OperandOk a) (hd : decodeFields d a = .ok i)
    (hi : exec i (afterFetch (100 * d + a) s) = .next (raiseExec kind (100 * d + a) (afterFetch (100 * d + a) s))) :
    step s = .next { s with
      pc := s.pc + 1, ir := d, ar := a, port := s.port ++ [.read s.pc (100 * d + a)]
      fault := some ⟨kind, kind.code, s.pc, some (100 * d + a)⟩, phase := .faulted } := by
  rw [h.step_eq_exec ((decode_of_digits ha).trans hd), hi, raiseExec_afterFetch, afterFetch_of_digits ha]
  rfl

/-- The words 400 to 499 are the invalid opcode (R85). -/
theorem decode_invalidOpcode {a : Int} (h : OperandOk a) : decode (400 + a) = .ok (.invalidOpcode a) :=
  decode_of_digits (d := 4) h

/-- Settles O18: opcode 4 is an instruction whose whole body is the fault InvalidOpcode (R136). -/
theorem invalidOpcodeFaults : Obligations.InvalidOpcodeFaults :=
  ⟨fun _ ha => decode_invalidOpcode ha, exec_invalidOpcode, fun a _ ha hs =>
    hs.step_of_exec_fault (d := 4) ha rfl (exec_invalidOpcode a _)⟩

/-- A word outside [0, 999] has no digit for its opcode (R10). -/
theorem opcode_not_digit {w : Int} (h : ¬ InRange w 0 999) : ¬ InRange (w / 100) 0 9 := by omega

/-- Settles O6: the opcode is no digit, so the decoder refuses the word and the execute phase faults with the word that
its two parts make up. -/
theorem wordsOutOfRangeFaultInvalidOpcode : Obligations.WordsOutOfRangeFaultInvalidOpcode := by
  intro w s hw hs
  have hnodigit : ¬ InRange (afterFetch w s).ir 0 9 := opcode_not_digit hw
  refine ⟨decodeFields_error (opcode_not_digit hw), ?_⟩
  rw [hs.step_eq, execute_of_no_digit hnodigit, raiseExec_afterFetch, afterFetch_ir, afterFetch_ar,
    Int.mul_ediv_add_emod w 100]
  rfl

end Sys2Proof.Machine
end

section
/-! PROOFS. The obligations of accumulator arithmetic (42_arith.md R170 to R172). -/

namespace Sys2Proof.Machine

/-! ### What ADD and SUB share: `f` is the operation, `word` the instruction's word -/

/-- A result in ACC's range is written, after one read of the operand (R172). -/
theorem arith_of_fits {f : Int → Int → Int} {a : Int} (ha : AddrValid a) (word : Int) {s : State}
    (hr : AccFits (f s.acc (s.mem.peek a.toNat))) :
    memRead a s (fun m t => settleAcc (f t.acc m) word t) = { s with
      acc := f s.acc (s.mem.peek a.toNat), phase := .fetch, port := s.port ++ [.read a (s.mem.peek a.toNat)] } := by
  rw [memRead_of_valid ha, settleAcc_of_fits hr]
  rfl

/-- Any other result faults AccumulatorOverflow, after one read of the operand (R172). -/
theorem arith_of_not_fits {f : Int → Int → Int} {a : Int} (ha : AddrValid a) (word : Int) {s : State}
    (hr : ¬ AccFits (f s.acc (s.mem.peek a.toNat))) :
    memRead a s (fun m t => settleAcc (f t.acc m) word t) = { s with
      fault := some ⟨.accumulatorOverflow, 5, s.pc - 1, some word⟩, phase := .faulted
      port := s.port ++ [.read a (s.mem.peek a.toNat)] } := by
  rw [memRead_of_valid ha, settleAcc_of_not_fits hr]
  rfl

section WholeCycle

variable {s : State} {d a : Int} {i : Instr} {f : Int → Int → Int}

/-- The whole cycle that writes ACC: both reads, the result, and the end of the cycle. -/
theorem AtFetch.step_arith_of_fits (h : AtFetch s (100 * d + a)) (ha : AddrValid a) (hd : decodeFields d a = .ok i)
    (hi : ∀ t, exec i t = .next (memRead a t fun m u => settleAcc (f u.acc m) (100 * d + a) u))
    (hr : AccFits (f s.acc (s.mem.peek a.toNat))) :
    step s = .next { s with
      acc := f s.acc (s.mem.peek a.toNat), pc := s.pc + 1, ir := d, ar := a
      port := s.port ++ [.read s.pc (100 * d + a), .read a (s.mem.peek a.toNat)] } := by
  have hphase : s.phase = .fetch := h.1
  rw [h.step_eq_exec ((decode_of_digits ha).trans hd), hi, arith_of_fits (s := afterFetch _ s) ha _ hr,
    afterFetch_of_digits ha]
  simp [hphase]

/-- The whole cycle that overflows: both reads, and the record of the address fetched from. -/
theorem AtFetch.step_arith_of_not_fits (h : AtFetch s (100 * d + a)) (ha : AddrValid a) (hd : decodeFields d a = .ok i)
    (hi : ∀ t, exec i t = .next (memRead a t fun m u => settleAcc (f u.acc m) (100 * d + a) u))
    (hr : ¬ AccFits (f s.acc (s.mem.peek a.toNat))) :
    step s = .next { s with
      pc := s.pc + 1, ir := d, ar := a
      fault := some ⟨.accumulatorOverflow, 5, s.pc, some (100 * d + a)⟩, phase := .faulted
      port := s.port ++ [.read s.pc (100 * d + a), .read a (s.mem.peek a.toNat)] } := by
  rw [h.step_eq_exec ((decode_of_digits ha).trans hd), hi, arith_of_not_fits (s := afterFetch _ s) ha _ hr,
    afterFetch_of_digits ha]
  simp

end WholeCycle

/-- The words 100 to 199 are ADD. -/
theorem decode_add {a : Int} (h : OperandOk a) : decode (100 + a) = .ok (.add a) := decode_of_digits (d := 1) h

/-- The words 200 to 299 are SUB. -/
theorem decode_sub {a : Int} (h : OperandOk a) : decode (200 + a) = .ok (.sub a) := decode_of_digits (d := 2) h

/-- Settles O19: ADD is the shared rule for the sum. -/
theorem addIsExactOrFaults : Obligations.AddIsExactOrFaults :=
  ⟨fun _ ha => decode_add ha,
    fun _ _ ha hr => congrArg Host.Outcome.next (arith_of_fits (f := (· + ·)) ha _ hr),
    fun _ _ ha hr => congrArg Host.Outcome.next (arith_of_not_fits (f := (· + ·)) ha _ hr),
    fun a _ ha hs hr => hs.step_arith_of_fits (d := 1) (f := (· + ·)) ha rfl (exec_add a) hr,
    fun a _ ha hs hr => hs.step_arith_of_not_fits (d := 1) (f := (· + ·)) ha rfl (exec_add a) hr⟩

/-- Settles O20: SUB is the shared rule for the difference. -/
theorem subIsExactOrFaults : Obligations.SubIsExactOrFaults :=
  ⟨fun _ ha => decode_sub ha,
    fun _ _ ha hr => congrArg Host.Outcome.next (arith_of_fits (f := (· - ·)) ha _ hr),
    fun _ _ ha hr => congrArg Host.Outcome.next (arith_of_not_fits (f := (· - ·)) ha _ hr),
    fun a _ ha hs hr => hs.step_arith_of_fits (d := 2) (f := (· - ·)) ha rfl (exec_sub a) hr,
    fun a _ ha hs hr => hs.step_arith_of_not_fits (d := 2) (f := (· - ·)) ha rfl (exec_sub a) hr⟩

/-- The arithmetic on an operand in memory ends in FAULTED exactly when the result does not fit ACC. -/
theorem arith_phase_faulted_iff {f : Int → Int → Int} {a : Int} (ha : AddrValid a) (word : Int) (s : State) :
    (memRead a s (fun m t => settleAcc (f t.acc m) word t)).phase = .faulted ↔
      ¬ AccFits (f s.acc (s.mem.peek a.toNat)) := by
  by_cases hr : AccFits (f s.acc (s.mem.peek a.toNat))
  · simp [arith_of_fits ha word hr, hr]
  · simp [arith_of_not_fits ha word hr, hr]

/-- Settles O21: a word is not negative, so a sum cannot fall below ACC's range nor a difference rise above it. -/
theorem overflowIsOneSided : Obligations.OverflowIsOneSided := by
  intro s a h ha
  have hacc := (accFits_iff s.acc).1 h.acc
  have hword := (wordFits_iff _).1 (Memory.peek_fits h.memWords a.toNat)
  refine ⟨⟨_, exec_add a s, ?_⟩, ⟨_, exec_sub a s, ?_⟩⟩
  · rw [arith_phase_faulted_iff (f := (· + ·)) ha, accFits_iff]
    omega
  · rw [arith_phase_faulted_iff (f := (· - ·)) ha, accFits_iff]
    omega

end Sys2Proof.Machine
end

section
/-! PROOFS. The obligations of the store (43_memory_ops.md R180; 20_memory.md R69). -/

namespace Sys2Proof.Machine

/-- The words 300 to 399 are STA. -/
theorem decode_sta {a : Int} (h : OperandOk a) : decode (300 + a) = .ok (.sta a) := decode_of_digits (d := 3) h

/-- STA of a word into a cell of memory: one write of ACC (R180). -/
theorem exec_sta_of_valid {a : Int} (ha : AddrValid a) {s : State} (hacc : WordFits s.acc) :
    exec (.sta a) s = .next { s with
      mem := s.mem.poke a.toNat s.acc, phase := .fetch, port := s.port ++ [.write a s.acc] } := by
  rw [exec_sta_of_fits hacc, memWrite_of_valid ha hacc]
  rfl

/-- The whole cycle of STA with a word in ACC: the fetch's read, then the write. -/
theorem AtFetch.step_sta {s : State} {a : Int} (h : AtFetch s (300 + a)) (ha : AddrValid a) (hacc : WordFits s.acc) :
    step s = .next { s with
      mem := s.mem.poke a.toNat s.acc, pc := s.pc + 1, ir := 3, ar := a
      port := s.port ++ [.read s.pc (300 + a), .write a s.acc] } := by
  have hphase : s.phase = .fetch := h.1
  have hfetch : afterFetch (300 + a) s = _ := afterFetch_of_digits (d := 3) ha s
  rw [h.step_eq_exec (decode_sta ha), exec_sta_of_valid (s := afterFetch _ s) ha hacc, hfetch]
  simp [hphase]

/-- Settles O22: STA checks ACC before the access; the written memory reads as `Memory.peek_poke` says. -/
theorem staStoresOrFaults : Obligations.StaStoresOrFaults := by
  refine ⟨fun a ha => decode_sta ha, fun a s ha hacc hm => ⟨_, exec_sta_of_valid ha hacc, rfl, ?_, fun k hk => ?_⟩,
    fun a s hacc => exec_sta_of_not_fits hacc a, fun a s ha hs hacc => hs.step_sta ha hacc, fun a s ha hs hacc => ?_⟩
  · exact (Memory.peek_poke hm _ _ s.acc).trans (if_pos rfl)
  · exact (Memory.peek_poke hm _ k s.acc).trans (if_neg hk)
  · exact hs.step_of_exec_fault (d := 3) ha rfl (exec_sta_of_not_fits (s := afterFetch _ s) hacc a)

/-- The single transition that fetches `w` (R131). -/
theorem AtFetch.phaseStep_eq {s : State} {w : Int} (h : AtFetch s w) : phaseStep s = .next (afterFetch w s) := by
  rw [phaseStep_of_fetch h.1, h.fetch_eq]

/-- Settles O24: the store leaves PC at the cell it wrote, and the next fetch reads that cell. -/
theorem storeIsSeenByTheNextFetch : Obligations.StoreIsSeenByTheNextFetch := by
  intro a s hm ha hacc hs hnext
  obtain rfl := hnext
  have hread : (s.mem.poke (s.pc + 1).toNat s.acc).peek (s.pc + 1).toNat = s.acc :=
    (Memory.peek_poke hm _ _ s.acc).trans (if_pos rfl)
  refine ⟨_, _, hs.step_sta ha hacc, AtFetch.phaseStep_eq (w := s.acc) ⟨hs.1, ha, hread⟩, rfl, rfl, rfl, rfl⟩

end Sys2Proof.Machine
end

section
/-! PROOFS. The obligations of input and of the output trace (45_io.md R200 to R204). -/

namespace Sys2Proof.Machine

/-- In WAIT_INPUT a step is the completion (R138). -/
theorem step_of_waitInput {s : State} (hp : s.phase = .waitInput) : step s = .next (completeInput s) := by
  rw [step_of_not_fetch (by simp [hp]), phaseStep_of_waitInput hp]

/-- In WAIT_INPUT with no answer the core holds (R138). -/
theorem step_of_unanswered {s : State} (hp : s.phase = .waitInput) (hi : s.input = []) : step s = .next s := by
  rw [step_of_waitInput hp, completeInput_nil hi]

/-- The core may wait for ever (R138). -/
theorem run_of_unanswered (n : Nat) {s : State} (hp : s.phase = .waitInput) (hi : s.input = []) :
    Host.Core.run Sys2Proof.core n s = .next s :=
  run_of_step_self Sys2Proof.core (step_of_unanswered hp hi) n

/-- In WAIT_INPUT a step consumes the oldest answer (R201). -/
theorem step_of_answered {s : State} (hp : s.phase = .waitInput) {answer : Answer} {rest : List Answer}
    (hi : s.input = answer :: rest) : step s = .next (answerInput answer { s with input := rest }) := by
  rw [step_of_waitInput hp, completeInput_cons hi]

/-- The word 901 is INP. -/
theorem decode_inp : decode 901 = .ok .inp := rfl

/-- The whole cycle of INP: the fetch's effects, and the request (R200). -/
theorem AtFetch.step_inp {s : State} (h : AtFetch s 901) :
    step s = .next { s with
      pc := s.pc + 1, ir := 9, ar := 1, phase := .waitInput, port := s.port ++ [.read s.pc 901] } := by
  rw [h.step_eq_exec decode_inp, exec_inp]
  rfl

/-- Settles O28: the cycle ends in WAIT_INPUT, where a step without an answer changes nothing. -/
theorem inpIssuesItsRequest : Obligations.InpIssuesItsRequest :=
  ⟨decode_inp, exec_inp, fun _ hs => ⟨_, hs.step_inp, rfl, rfl, rfl, fun hi n => run_of_unanswered n rfl hi⟩⟩

/-- Settles O29: the step takes the oldest answer, and only a value in range goes to ACC. -/
theorem inpCompletesOnTheAnswer : Obligations.InpCompletesOnTheAnswer := by
  refine fun s hp => ⟨step_of_unanswered hp, fun v rest hi hv => ?_, fun v rest hi hv => ?_,
    fun rest hi => step_of_answered hp hi, fun rest hi => step_of_answered hp hi⟩
  · rw [step_of_answered hp hi, answerInput_of_fits hv]; rfl
  · rw [step_of_answered hp hi, answerInput_of_not_fits hv]; rfl

/-- An execute body appends at most one emission, ACC, and only OUT's does (R203, R204). -/
theorem exec_emits {i : Instr} {s t : State} (h : exec i s = .next t) :
    t.out = s.out ∨ i = .out ∧ t.out = s.out ++ [s.acc] := by
  cases exec_outcome h with
  | out => exact .inr ⟨rfl, rfl⟩
  | _ => exact .inl rfl

theorem execute_emits {s t : State} (h : execute s = .next t) : t.out = s.out ∨ t.out = s.out ++ [s.acc] := by
  obtain ⟨i, -, hexec⟩ | ⟨-, rfl⟩ := execute_cases h
  · exact (exec_emits hexec).imp_right And.right
  · exact .inl rfl

/-- An answer emits nothing. -/
theorem answerInput_out (answer : Answer) (s : State) : (answerInput answer s).out = s.out := by
  obtain ⟨v, -, -, heq⟩ | ⟨kind, -, heq⟩ := answerInput_cases answer s <;> rw [heq] <;> rfl

theorem step_emits {s t : State} (h : step s = .next t) : t.out = s.out ∨ t.out = s.out ++ [s.acc] := by
  obtain ⟨-, -, hexec⟩ | ⟨-, -, rfl⟩ | ⟨-, hexec⟩ | ⟨-, -, rfl⟩ | ⟨-, answer, rest, -, rfl⟩ | ⟨-, rfl⟩ := step_cases h
  · exact execute_emits (s := afterFetch _ s) hexec
  · exact .inl rfl
  · exact execute_emits hexec
  · exact .inl rfl
  · exact .inl (answerInput_out answer _)
  · exact .inl rfl

/-- Settles O32: among the events only a step can emit, and only as the execute body of OUT. -/
theorem outputTraceOnlyGrows : Obligations.OutputTraceOnlyGrows := by
  intro e s t h
  cases e with
  | tick => exact step_emits h
  | reset => cases h; exact .inl rfl
  | deliver answer => cases h; exact .inl rfl

end Sys2Proof.Machine
end

section
/-! PROOFS. What an instruction may change, and when PC leaves memory (10_state.md R22, R32, R35). -/

namespace Sys2Proof.Machine

/-! ### The frame of an execute body, one piece of state at a time (R32) -/

section Frame

variable {i : Instr} {s t : State}

theorem exec_acc_frame (h : exec i s = .next t) : t.acc = s.acc ∨ ∃ a, i = .add a ∨ i = .sub a ∨ i = .lda a := by
  cases exec_outcome h with
  | addFits | subFits | lda => simp
  | _ => exact .inl rfl

/-- PC goes nowhere but to the operand of a branch that is taken. -/
theorem exec_pc_frame (h : exec i s = .next t) :
    t.pc = s.pc ∨ t.pc = i.operand ∧
      ∃ a, (i = .bra a ∨ i = .brz a ∧ s.acc = 0 ∨ i = .brp a ∧ 0 ≤ s.acc) ∧ t.pc = branchTarget a := by
  cases exec_outcome h with
  | bra a => exact .inr ⟨rfl, a, .inl rfl, rfl⟩
  | brzTaken a hz => exact .inr ⟨rfl, a, .inr (.inl ⟨rfl, hz⟩), rfl⟩
  | brpTaken a hp => exact .inr ⟨rfl, a, .inr (.inr ⟨rfl, hp⟩), rfl⟩
  | _ => exact .inl rfl

theorem exec_halted_frame (h : exec i s = .next t) : t.halted = s.halted ∨ ∃ a, i = .hlt a := by
  cases exec_outcome h with
  | hlt a => exact .inr ⟨a, rfl⟩
  | _ => exact .inl rfl

/-- Memory is written by STA alone, in the cell its operand names. -/
theorem exec_mem_frame (h : exec i s = .next t) :
    t.mem = s.mem ∨ ∃ a, i = .sta a ∧ t.mem = s.mem.poke (dataAddress a).toNat s.acc := by
  cases exec_outcome h with
  | @staFits a => exact .inr ⟨a, rfl, rfl⟩
  | _ => exact .inl rfl

theorem exec_fault_frame (h : exec i s = .next t) : t.fault = s.fault ∨ t.phase = .faulted := by
  cases exec_outcome h with
  | addOverflow | addBadAddress | subOverflow | subBadAddress | staOutOfRange | staBadAddress | invalidOpcode
  | ldaBadAddress => exact .inr rfl
  | _ => exact .inl rfl

end Frame

/-- Settles O33: the frame, piece by piece; a write to one cell changes no other. -/
theorem execWritesOnlyWhatTheTableNames : Obligations.ExecWritesOnlyWhatTheTableNames := by
  refine fun i s t h => ⟨exec_keeps_ir_ar_input h, (exec_acc_frame h).resolve_left,
    fun hne => ((exec_pc_frame h).resolve_left hne).2, (exec_halted_frame h).resolve_left, fun k hne => ?_,
    fun hne => ?_, fun hne => ((exec_emits h).resolve_left hne).1, (exec_fault_frame h).resolve_left⟩
  · obtain heq | ⟨a, rfl, heq⟩ := exec_mem_frame h
    · exact absurd (by rw [heq]) hne
    · refine ⟨a, rfl, ?_⟩
      by_contra hk
      exact hne (by rw [heq, Memory.peek_poke_ne _ _ hk])
  · obtain ⟨a, hi, -⟩ := (exec_mem_frame h).resolve_left hne
    exact ⟨a, hi⟩

/-! ### PC past the end (R22) -/

/-- The execute phase leaves PC or sets it to AR. -/
theorem execute_pc {s t : State} (h : execute s = .next t) : t.pc = s.pc ∨ t.pc = s.ar := by
  obtain ⟨i, hd, hexec⟩ | ⟨-, rfl⟩ := execute_cases h
  · obtain ⟨-, har, -⟩ := decodeFields_inv hd
    exact (exec_pc_frame hexec).imp_right fun hbranch => hbranch.1.trans har.symm
  · exact .inl rfl

theorem answerInput_pc (answer : Answer) (s : State) : (answerInput answer s).pc = s.pc := by
  obtain ⟨v, -, -, heq⟩ | ⟨kind, -, heq⟩ := answerInput_cases answer s <;> rw [heq] <;> rfl

/-- Settles O34: a branch goes to an address of two digits, so only the fetch's increment can give 100. -/
theorem pcReachesHundredOnlyFromNinetyNine : Obligations.PcReachesHundredOnlyFromNinetyNine := by
  intro s t h ht hpc hne
  obtain ⟨hp, hv, hexec⟩ | ⟨-, -, rfl⟩ | ⟨-, hexec⟩ | ⟨-, -, rfl⟩ | ⟨-, answer, rest, -, rfl⟩ | ⟨-, rfl⟩ :=
    step_cases ht
  · have har := operandOf_ok (s.mem.peek s.pc.toNat)
    obtain heq | heq := execute_pc hexec
    · rw [afterFetch_pc] at heq; exact ⟨by omega, hp⟩
    · rw [afterFetch_ar] at heq; omega
  · exact absurd hpc hne
  · have har := h.ar
    obtain heq | heq := execute_pc hexec <;> omega
  · exact absurd hpc hne
  · rw [answerInput_pc] at hpc; exact absurd hpc hne
  · exact absurd hpc hne

end Sys2Proof.Machine
end

section
/-! PROOFS. The transactions of a cycle (20_memory.md R59). -/

namespace Sys2Proof.Machine

/-- The transactions of the execute phase, read off IR: one read at AR for ADD, SUB and LDA, one write of ACC for a STA
that does not fault. -/
def executeTransactions (s : State) : List Transaction :=
  if s.ir = 1 ∨ s.ir = 2 ∨ s.ir = 5 then [.read s.ar (s.mem.peek s.ar.toNat)]
  else if s.ir = 3 ∧ 0 ≤ s.acc then [.write s.ar s.acc]
  else []

/-- With AR an address of memory and ACC no greater than a word, the execute phase makes just these transactions. -/
theorem execute_port {s t : State} (har : AddrValid s.ar) (hacc : s.acc ≤ 999) (h : execute s = .next t) :
    t.port = s.port ++ executeTransactions s := by
  unfold executeTransactions
  obtain ⟨i, hd, hexec⟩ | ⟨hnodigit, rfl⟩ := execute_cases h
  · obtain ⟨hopcode, hoperand, -⟩ := decodeFields_inv hd
    rw [hoperand] at har
    cases exec_outcome hexec with
    | addFits | addOverflow | subFits | subOverflow | lda => simp [hopcode, hoperand, Instr.opcode, Instr.operand]
    | addBadAddress hv | subBadAddress hv | staBadAddress hv | ldaBadAddress hv => exact absurd har hv
    | staFits _ hr => simp [hopcode, hoperand, Instr.opcode, Instr.operand, hr.1]
    | staOutOfRange hr =>
      have hneg : ¬ 0 ≤ s.acc := fun hnonneg => hr ⟨hnonneg, hacc⟩
      simp [hopcode, Instr.opcode, hneg]
    | _ => simp [hopcode, Instr.opcode]
  · rw [if_neg (by omega), if_neg (by omega), List.append_nil, raiseExec_port]

/-- Settles O35: the fetch's read, then the execute phase's transactions. -/
theorem transactionsOfACycle : Obligations.TransactionsOfACycle := by
  intro s t w h hs ht
  rw [hs.step_eq] at ht
  have hport := execute_port (s := afterFetch w s) (operandOf_ok w) h.acc.2 ht
  rw [hport, afterFetch_port, List.append_assoc]
  rfl

end Sys2Proof.Machine
end

section
/-! PROOFS. The obligations of faults (60_exceptions.md R220 to R228). -/

namespace Sys2Proof.Machine

/-- When the execute phase faults, in a state that meets the invariant: AR names a cell, IR is a digit, and the range
checks can fail on one side only. -/
theorem phaseAfterExecute_faulted_iff {s : State} (h : Inv s) :
    phaseAfterExecute s = .faulted ↔
      s.ir = 4 ∨ (s.ir = 1 ∧ 999 < s.acc + s.mem.peek s.ar.toNat) ∨
      (s.ir = 2 ∧ s.acc - s.mem.peek s.ar.toNat < -999) ∨ (s.ir = 3 ∧ s.acc < 0) := by
  have hacc := (accFits_iff s.acc).1 h.acc
  have hword := (wordFits_iff _).1 (Memory.peek_fits h.memWords s.ar.toNat)
  have har := h.ar
  have hir := h.ir
  unfold phaseAfterExecute
  split_ifs <;> simp only [false_iff, true_iff] <;> omega

/-- Settles O36: with PC in memory the fetched word's row decides, and otherwise PC is 100 and the fetch faults. -/
theorem whenACycleFaults : Obligations.WhenACycleFaults := by
  intro s t h hp ht
  by_cases hv : AddrValid s.pc
  · have hpc : s.pc ≠ 100 := by rw [addrValid_iff] at hv; omega
    rw [step_phase_of_fetch ht hp hv, phaseAfterExecute_faulted_iff (h.after_fetch hp hv), or_iff_right hpc]
    rfl
  · have hpc : s.pc = 100 := by have := h.pc; rw [addrValid_iff] at hv; omega
    exact iff_of_true (step_phase_of_bad_fetch ht hp hv) (.inl hpc)

/-! ### Precise faults (R223, R224) -/

/-- An execute body that faults writes FAULT and PHASE, and the port's record at most; with its operand in memory, the
record names the address fetched from. -/
theorem exec_faulted {i : Instr} {s t : State} (h : exec i s = .next t) (hf : t.phase = .faulted) :
    ∃ r port, t = { s with fault := some r, phase := .faulted, port := port } ∧ r.code = r.kind.code ∧
      (AddrValid i.operand → r.pc = s.pc - 1) := by
  cases exec_outcome h with
  | addOverflow | subOverflow | staOutOfRange | invalidOpcode => exact ⟨_, _, rfl, rfl, fun _ => rfl⟩
  | addBadAddress hv | subBadAddress hv | staBadAddress hv | ldaBadAddress hv =>
    exact ⟨_, _, rfl, rfl, fun hvalid => absurd hvalid hv⟩
  | _ => cases hf

theorem execute_faulted {s t : State} (h : execute s = .next t) (hf : t.phase = .faulted) :
    ∃ r port, t = { s with fault := some r, phase := .faulted, port := port } ∧ r.code = r.kind.code ∧
      (AddrValid s.ar → r.pc = s.pc - 1) := by
  obtain ⟨i, hd, hexec⟩ | ⟨-, rfl⟩ := execute_cases h
  · obtain ⟨-, har, -⟩ := decodeFields_inv hd
    obtain ⟨r, port, heq, hcode, hpc⟩ := exec_faulted hexec hf
    exact ⟨r, port, heq, hcode, fun hv => hpc (har ▸ hv)⟩
  · exact ⟨_, _, rfl, rfl, fun _ => rfl⟩

/-- An answer that faults writes FAULT and PHASE. -/
theorem answerInput_faulted {answer : Answer} {s : State} (hf : (answerInput answer s).phase = .faulted) :
    ∃ r, answerInput answer s = { s with fault := some r, phase := .faulted } ∧ r.code = r.kind.code := by
  obtain ⟨v, -, -, heq⟩ | ⟨kind, -, heq⟩ := answerInput_cases answer s <;> rw [heq] at hf ⊢
  · cases hf
  · exact ⟨_, rfl, rfl⟩

/-- A step that enters FAULTED after a fetch: the fetch's effects, and FAULT and PHASE. -/
theorem step_faulted_of_fetch {s t : State} (h : step s = .next t) (hf : t.phase = .faulted) (hp : s.phase = .fetch)
    (hv : AddrValid s.pc) :
    ∃ r port, t = { afterFetch (s.mem.peek s.pc.toNat) s with fault := some r, phase := .faulted, port := port } ∧
      r.code = r.kind.code ∧ r.pc = s.pc := by
  rw [step_of_fetch hp hv] at h
  obtain ⟨r, port, rfl, hcode, hpc⟩ := execute_faulted h hf
  refine ⟨r, port, rfl, hcode, ?_⟩
  rw [hpc (operandOf_ok _), afterFetch_pc, Int.add_sub_cancel]

/-- A step that enters FAULTED with no fetch: FAULT and PHASE alone, and the queue for an answer consumed. -/
theorem step_faulted_of_no_fetch {s t : State} (h : step s = .next t) (hs : s.phase ≠ .faulted)
    (hf : t.phase = .faulted) (hno : ¬ (s.phase = .fetch ∧ AddrValid s.pc)) :
    ∃ r port input, t = { s with fault := some r, phase := .faulted, port := port, input := input } ∧
      r.code = r.kind.code := by
  obtain ⟨hp, hv, -⟩ | ⟨-, -, rfl⟩ | ⟨-, hexec⟩ | ⟨-, -, rfl⟩ | ⟨-, answer, rest, -, rfl⟩ | ⟨-, rfl⟩ := step_cases h
  · exact absurd ⟨hp, hv⟩ hno
  · exact ⟨_, _, _, rfl, rfl⟩
  · obtain ⟨r, port, rfl, hcode, -⟩ := execute_faulted hexec hf
    exact ⟨r, port, _, rfl, hcode⟩
  · exact absurd hf hs
  · obtain ⟨r, heq, hcode⟩ := answerInput_faulted hf
    exact ⟨r, _, rest, heq, hcode⟩
  · exact absurd hf hs

/-- Settles O37: what a faulting step leaves is what the fetch left, or the state before it, with FAULT and PHASE
written. -/
theorem faultsArePrecise : Obligations.FaultsArePrecise := by
  intro s t h hs hf
  by_cases hfetch : s.phase = .fetch ∧ AddrValid s.pc
  · obtain ⟨r, port, rfl, hcode, hpc⟩ := step_faulted_of_fetch h hf hfetch.1 hfetch.2
    exact ⟨rfl, rfl, rfl, rfl, ⟨r, rfl, hcode⟩, fun _ _ => ⟨rfl, rfl, rfl, r, rfl, hpc⟩, fun hno => absurd hfetch hno⟩
  · obtain ⟨r, port, input, rfl, hcode⟩ := step_faulted_of_no_fetch h hs hf hfetch
    exact ⟨rfl, rfl, rfl, rfl, ⟨r, rfl, hcode⟩, fun hp hv => absurd ⟨hp, hv⟩ hfetch, fun _ => ⟨rfl, rfl, rfl⟩⟩

end Sys2Proof.Machine
end

section
/-! PROOFS. The obligation that the unobservable state has no influence (10_state.md R30, R34). -/

namespace Sys2Proof.Machine

/-- The state with other emissions made and other transactions past. -/
def State.withPast (s : State) (out : List Int) (port : List Transaction) : State := { s with out := out, port := port }

/-- The state with another past and other values in IR and AR. -/
def State.withUnobservable (s : State) (ir ar : Int) (out : List Int) (port : List Transaction) : State :=
  { s with ir := ir, ar := ar, out := out, port := port }

/-- From `s`, `F` answers one next state whatever the past is, and only appends to the past. -/
def Appends (F : State → Host.Outcome State Fault Refusal) (s : State) : Prop :=
  ∃ (t : State) (o : List Int) (p : List Transaction), ∀ out port,
    F (s.withPast out port) = .next (t.withPast (out ++ o) (port ++ p))

/-- What neither writes the past nor looks at it appends nothing. -/
theorem appends_of_keeps {F : State → Host.Outcome State Fault Refusal} {s t : State}
    (h : ∀ out port, F (s.withPast out port) = .next (t.withPast out port)) : Appends F s :=
  ⟨t, [], [], fun out port => by rw [List.append_nil, List.append_nil]; exact h out port⟩

theorem raise_appends (kind : FaultKind) (pc : Int) (w : Option Int) (s : State) :
    Appends (fun u => .next (raise kind pc w u)) s :=
  appends_of_keeps (t := raise kind pc w s) fun _ _ => rfl

theorem raiseExec_appends (kind : FaultKind) (w : Int) (s : State) : Appends (fun u => .next (raiseExec kind w u)) s :=
  appends_of_keeps (t := raiseExec kind w s) fun _ _ => rfl

theorem finishWith_appends (r : Int) (s : State) : Appends (fun u => .next (finishWith r u)) s :=
  appends_of_keeps (t := finishWith r s) fun _ _ => rfl

theorem branchIf_appends (c : Int → Bool) (a : Int) (s : State) :
    Appends (fun u => .next (branchIf (c u.acc) a u)) s := by
  refine appends_of_keeps (t := branchIf (c s.acc) a s) fun out port => ?_
  show Host.Outcome.next (branchIf (c s.acc) a (s.withPast out port)) = _
  cases c s.acc <;> rfl

/-- A read appends its transaction, and then what the rest of the rule appends. -/
theorem memRead_appends {a : Int} {s : State} {k : Int → State → State}
    (hk : ∀ m, Appends (fun u => .next (k m u)) s) : Appends (fun u => .next (memRead a u k)) s := by
  by_cases hv : AddrValid a
  · obtain ⟨t, o, p, hrest⟩ := hk (s.mem.peek a.toNat)
    refine ⟨t, o, .read a (s.mem.peek a.toNat) :: p, fun out port => ?_⟩
    rw [List.append_cons, ← hrest]
    exact congrArg Host.Outcome.next (memRead_of_valid hv (s.withPast out port) k)
  · obtain ⟨t, o, p, hraise⟩ := raise_appends .outOfRangeAddress a none s
    exact ⟨t, o, p, fun out port =>
      (congrArg Host.Outcome.next (memRead_of_invalid hv (s.withPast out port) k)).trans (hraise out port)⟩

/-- A result computed from ACC ends alike whatever the past is. -/
theorem settleAcc_appends (f : Int → Int) (w : Int) (s : State) :
    Appends (fun u => .next (settleAcc (f u.acc) w u)) s := by
  by_cases hr : AccFits (f s.acc)
  · exact appends_of_keeps (t := finishWith (f s.acc) s) fun out port =>
      congrArg Host.Outcome.next (settleAcc_of_fits hr w (s.withPast out port))
  · exact appends_of_keeps (t := raiseExec .accumulatorOverflow w s) fun out port =>
      congrArg Host.Outcome.next (settleAcc_of_not_fits hr w (s.withPast out port))

theorem sta_appends (a : Int) (s : State) : Appends (exec (.sta a)) s := by
  by_cases hr : WordFits s.acc
  · by_cases hv : AddrValid a
    · refine ⟨finish { s with mem := s.mem.poke a.toNat s.acc }, [], [.write a s.acc], fun out port => ?_⟩
      rw [List.append_nil]
      exact exec_sta_of_valid (s := s.withPast out port) hv hr
    · exact appends_of_keeps (t := raise .outOfRangeAddress a none s) fun out port =>
        (exec_sta_of_fits (s := s.withPast out port) hr a).trans
          (congrArg Host.Outcome.next (memWrite_of_invalid hv s.acc (s.withPast out port) finish))
  · exact appends_of_keeps (t := raiseExec .wordOutOfRange (300 + a) s) fun out port =>
      exec_sta_of_not_fits (s := s.withPast out port) hr a

/-- No execute body looks at past emissions or transactions. -/
theorem exec_appends (i : Instr) (s : State) : Appends (exec i) s := by
  cases i with
  | hlt a => exact appends_of_keeps (t := { s with halted := true, phase := .halted }) fun _ _ => rfl
  | add a => exact memRead_appends fun m => settleAcc_appends (· + m) (100 + a) s
  | sub a => exact memRead_appends fun m => settleAcc_appends (· - m) (200 + a) s
  | sta a => exact sta_appends a s
  | invalidOpcode a => exact raiseExec_appends .invalidOpcode (400 + a) s
  | lda a => exact memRead_appends fun m => finishWith_appends m s
  | bra a => exact branchIf_appends (fun _ => true) a s
  | brz a => exact branchIf_appends (fun acc => decide (acc = 0)) a s
  | brp a => exact branchIf_appends (fun acc => decide (0 ≤ acc)) a s
  | inp => exact appends_of_keeps (t := { s with phase := .waitInput }) fun _ _ => rfl
  | out => exact ⟨finish s, [s.acc], [], fun out port => by rw [List.append_nil]; rfl⟩
  | ioReserved a => exact appends_of_keeps (t := finish s) fun _ _ => rfl

theorem execute_appends (s : State) : Appends execute s := by
  by_cases hr : InRange s.ir 0 9
  · obtain ⟨i, hi⟩ := decodeFields_ok s.ar hr
    obtain ⟨t, o, p, hexec⟩ := exec_appends i s
    exact ⟨t, o, p, fun out port => (execute_of_decoded (s := s.withPast out port) hi).trans (hexec out port)⟩
  · exact appends_of_keeps (t := raiseExec .invalidOpcode (100 * s.ir + s.ar) s) fun out port =>
      execute_of_no_digit (s := s.withPast out port) hr

/-- An answer is dealt with alike whatever the unobservable state is. -/
theorem answerInput_withUnobservable (answer : Answer) (s : State) (ir ar : Int) (out : List Int)
    (port : List Transaction) :
    answerInput answer (s.withUnobservable ir ar out port) =
      (answerInput answer s).withUnobservable ir ar out port := by
  cases answer with
  | value v =>
    by_cases hv : InputFits v
    · rw [answerInput_of_fits hv, answerInput_of_fits hv]; rfl
    · rw [answerInput_of_not_fits hv, answerInput_of_not_fits hv]; rfl
  | invalid => rfl
  | exhausted => rfl

/-- Outside EXECUTE the unobservable state has no influence: a step from FETCH overwrites IR and AR before it looks at
them and appends to the past, and any other step keeps all four. -/
theorem step_withUnobservable {s : State} (hp : s.phase ≠ .execute) :
    (∃ (t : State) (o : List Int) (p : List Transaction), ∀ ir ar out port,
      step (s.withUnobservable ir ar out port) = .next (t.withPast (out ++ o) (port ++ p))) ∨
    (∃ t : State, ∀ ir ar out port,
      step (s.withUnobservable ir ar out port) = .next (t.withUnobservable ir ar out port)) := by
  cases hphase : s.phase with
  | execute => contradiction
  | fetch =>
    by_cases hv : AddrValid s.pc
    · left
      obtain ⟨t, o, p, hexec⟩ := execute_appends (afterFetch (s.mem.peek s.pc.toNat) s)
      refine ⟨t, o, .read s.pc (s.mem.peek s.pc.toNat) :: p, fun ir ar out port => ?_⟩
      rw [List.append_cons]
      exact (step_of_fetch (s := s.withUnobservable ir ar out port) hphase hv).trans (hexec out _)
    · exact .inr ⟨raise .outOfRangeAddress s.pc none s, fun ir ar out port =>
        step_of_bad_fetch (s := s.withUnobservable ir ar out port) hphase hv⟩
  | waitInput =>
    right
    cases hi : s.input with
    | nil => exact ⟨s, fun ir ar out port => step_of_unanswered (s := s.withUnobservable ir ar out port) hphase hi⟩
    | cons answer rest =>
      exact ⟨answerInput answer { s with input := rest }, fun ir ar out port =>
        (step_of_answered (s := s.withUnobservable ir ar out port) hphase hi).trans
          (congrArg Host.Outcome.next (answerInput_withUnobservable answer { s with input := rest } ir ar out port))⟩
  | halted => exact .inr ⟨s, fun ir ar out port => step_of_ended (.inl hphase)⟩
  | faulted => exact .inr ⟨s, fun ir ar out port => step_of_ended (.inr hphase)⟩

/-- In every phase a step only appends to the past. -/
theorem step_appends (s : State) : Appends step s := by
  by_cases hp : s.phase = .execute
  · obtain ⟨t, o, p, hexec⟩ := execute_appends s
    refine ⟨t, o, p, fun out port => ?_⟩
    have hphase : (s.withPast out port).phase = .execute := hp
    rw [step_of_not_fetch (by simp [hphase]), phaseStep_of_execute hphase]
    exact hexec out port
  · obtain ⟨t, o, p, hstep⟩ | ⟨t, hstep⟩ := step_withUnobservable hp
    · exact ⟨t, o, p, fun out port => hstep s.ir s.ar out port⟩
    · exact appends_of_keeps (t := { t with ir := s.ir, ar := s.ar }) fun out port => hstep s.ir s.ar out port

/-- Settles O43: what a step answers for the state's own past it answers for any other, with the same emissions and
transactions after it. -/
theorem unobservableStateHasNoInfluence : Obligations.UnobservableStateHasNoInfluence := by
  refine ⟨fun s t out port h => ?_, fun s t ir ar out port hp h => ?_⟩
  · obtain ⟨u, o, p, hstep⟩ := step_appends s
    obtain rfl : u.withPast (s.out ++ o) (s.port ++ p) = t := by
      injection (hstep s.out s.port).symm.trans h
    exact ⟨o, p, hstep out port, rfl, rfl⟩
  · obtain ⟨u, o, p, hstep⟩ | ⟨u, hstep⟩ := step_withUnobservable hp
    · obtain rfl : u.withPast (s.out ++ o) (s.port ++ p) = t := by
        injection (hstep s.ir s.ar s.out s.port).symm.trans h
      exact ⟨_, o, p, hstep ir ar out port, rfl, rfl, rfl, rfl, rfl, rfl, rfl, rfl, rfl, rfl, rfl⟩
    · obtain rfl : u.withUnobservable s.ir s.ar s.out s.port = t := by
        injection (hstep s.ir s.ar s.out s.port).symm.trans h
      exact ⟨_, [], [], hstep ir ar out port, rfl, rfl, rfl, rfl, rfl, rfl, rfl, by simp [State.withUnobservable]⟩

end Sys2Proof.Machine
end

section
/-! PROOFS. The obligations of reset (10_state.md R34; 70_reset_and_hazards.md R250 to R252). -/

namespace Sys2Proof.Machine

/-- Settles O44: the reset values are fields of `State.reset`, whose memory lists no cell. -/
theorem resetValues : Obligations.ResetValues :=
  ⟨rfl, rfl, rfl, rfl, rfl, rfl, rfl, Memory.peek_nil⟩

/-- Settles O45: a reset leaves FETCH with PC 0, an address of memory, so the next transition is a fetch from there. -/
theorem coreResetKeepsMemoryAndOutput : Obligations.CoreResetKeepsMemoryAndOutput := by
  intro s
  have hfetch : AtFetch s.coreReset (s.mem.peek 0) := ⟨rfl, (by decide : AddrValid 0), rfl⟩
  exact ⟨rfl, rfl, _, hfetch.phaseStep_eq, rfl, rfl, rfl⟩

end Sys2Proof.Machine
end

section
/-! PROOFS. The loader's obligations: what it refuses, and that the assembled format is read back
(70_reset_and_hazards.md R256, R257; 30_encoding.md R112). -/

namespace Sys2Proof.Machine

/-! ### The loader's refusals -/

theorem loadImage_of_too_long {image : List Int} (h : 100 < image.length) :
    loadImage image = .error .programTooLarge := if_pos h

theorem loadImage_of_bad_word {image : List Int} (hlen : image.length ≤ 100) (h : ∃ w ∈ image, ¬ WordFits w) :
    loadImage image = .error .invalidToken := by
  have hnotlong : ¬ Config.memSize < image.length := Nat.not_lt.2 hlen
  have hnotwords : ¬ ∀ w ∈ image, WordFits w := by
    obtain ⟨w, hw, hbad⟩ := h
    exact fun hall => hbad (hall w hw)
  rw [loadImage, if_neg hnotlong, if_neg hnotwords]

/-- A refused image starts no run (R256). -/
theorem boot_of_refused {image : List Int} {e : LoadError} (h : loadImage image = .error e) (answers : List Answer) :
    boot image answers = .error e := by
  rw [boot, h]

theorem parseImage_of_too_long {source : Text} (h : 100 < (tokens source).length) :
    parseImage source = .error .programTooLarge := if_pos h

/-- A source of at most 100 tokens gives its words, or InvalidToken where one is no decimal integer (R257). -/
theorem parseImage_of_short {source : Text} (h : (tokens source).length ≤ 100) :
    (∃ ws, parseWords (tokens source) = some ws ∧ parseImage source = .ok ws) ∨
    parseImage source = .error .invalidToken := by
  have hnotlong : ¬ Config.memSize < (tokens source).length := Nat.not_lt.2 h
  rw [parseImage, if_neg hnotlong]
  cases hparse : parseWords (tokens source) with
  | none => exact .inr rfl
  | some ws => exact .inl ⟨ws, rfl, rfl⟩

theorem bootText_of_ok {source : Text} {image : List Int} (h : parseImage source = .ok image)
    (answers : List Answer) : bootText source answers = boot image answers := by
  rw [bootText, h]

theorem bootText_of_error {source : Text} {e : LoadError} (h : parseImage source = .error e)
    (answers : List Answer) : bootText source answers = .error e := by
  rw [bootText, h]

/-- The words parsed are those of the tokens, one by one. -/
theorem parseWords_eq_some {ts : List Token} : ∀ {ws : List Int}, parseWords ts = some ws →
    ts.map parseInt = ws.map some := by
  induction ts with
  | nil => intro ws h; cases h; rfl
  | cons t ts ih =>
    intro ws h
    rw [parseWords] at h
    split at h
    · next w ws' hw hws => cases h; rw [List.map_cons, List.map_cons, hw, ih hws]
    · cases h

/-- Settles O47: the loader checks the length first, and a token that is no word gives either no image or an image with
a word out of range. -/
theorem loaderRefusesBadImages : Obligations.LoaderRefusesBadImages := by
  refine ⟨fun image answers hlong => boot_of_refused (loadImage_of_too_long hlong) answers,
    fun image answers hlen hbad => boot_of_refused (loadImage_of_bad_word hlen hbad) answers,
    fun source answers hlong => bootText_of_error (parseImage_of_too_long hlong) answers,
    fun source answers hlen hbad => ?_⟩
  obtain ⟨ws, hparse, hok⟩ | herror := parseImage_of_short hlen
  · have hmap := parseWords_eq_some hparse
    have hsame : (tokens source).length = ws.length := by
      rw [← List.length_map (f := parseInt), hmap, List.length_map]
    have hlength : ws.length ≤ 100 := hsame ▸ hlen
    obtain ⟨t, ht, hbad⟩ := hbad
    have hmem : parseInt t ∈ ws.map some := hmap ▸ List.mem_map_of_mem ht
    obtain ⟨w, hw, hwt⟩ := List.mem_map.1 hmem
    rw [bootText_of_ok hok]
    exact boot_of_refused (loadImage_of_bad_word hlength ⟨w, hw, hbad w hwt.symm⟩) answers
  · exact bootText_of_error herror answers

/-! ### The assembled format (R112) -/

/-- The fields of a printed image are its words, three digits each. -/
theorem tokens_renderImage (image : List Int) :
    tokens (renderImage image) = image.map fun w => threeDigits w.toNat := by
  induction image with
  | nil => rfl
  | cons w ws ih =>
    obtain ⟨hne, hchars⟩ := threeDigits_token w.toNat
    rw [renderImage, tokens_append _ _ _ hne hchars rfl, ih, List.map_cons]

/-- Printed words are read back. -/
theorem parseWords_threeDigits {image : List Int} (h : ∀ w ∈ image, WordFits w) :
    parseWords (image.map fun w => threeDigits w.toNat) = some image := by
  induction image with
  | nil => rfl
  | cons w ws ih =>
    obtain ⟨hw, hws⟩ := List.forall_mem_cons.1 h
    rw [wordFits_iff] at hw
    have hparse : parseInt (threeDigits w.toNat) = some w := by
      rw [(parse_threeDigits (by omega)).1, Int.toNat_of_nonneg hw.1]
    rw [List.map_cons, parseWords, hparse, ih hws]

/-- Settles O49: the text has one field for each word, which is read back. -/
theorem assembledFormatReadsBack : Obligations.AssembledFormatReadsBack := by
  intro image hlen hw
  have hnotlong : ¬ Config.memSize < (tokens (renderImage image)).length := by
    rw [tokens_renderImage, List.length_map]; exact Nat.not_lt.2 hlen
  rw [parseImage, if_neg hnotlong, tokens_renderImage, parseWords_threeDigits hw]

end Sys2Proof.Machine
end

section
/-! PROOFS. The assembler's obligations (30_encoding.md R100 to R115). -/

namespace Sys2Proof.Machine

/-! ### The words the assembler emits -/

/-- An opcode digit of R108 is a digit. -/
theorem digit_of_addressed {m : Mnemonic} {d : Int} (h : m.emission = .addressed d) : InRange d 0 9 := by
  cases m <;> cases h <;> decide

/-- A preset code of R109 is a word. -/
theorem fits_of_fixed {m : Mnemonic} {code : Int} (h : m.emission = .fixed code) : WordFits code := by
  cases m <;> cases h <;> decide

/-- What a mnemonic emits is a word (R108 to R110). -/
theorem emitWord_fits {m : Mnemonic} {operand : Option Int} {w : Int} (h : emitWord m operand = .ok w) :
    WordFits w := by
  unfold emitWord at h
  split at h
  · cases h
  · next d v hd =>
    have hdigit := digit_of_addressed hd
    split at h
    · next hv => cases h; rw [wordFits_iff]; omega
    · cases h
  · next code _ hcode => cases h; exact fits_of_fixed hcode
  · cases h; decide
  · split at h
    · next hv => cases h; exact hv
    · cases h

/-! The line of a mnemonic, by its operands (R105). -/

section Fields

variable {known : Labels} {t : Token} {m : Mnemonic}

theorem assembleFields_no_operand (h : mnemonicOf t = some m) : assembleFields known [t] = emitWord m none := by
  rw [assembleFields, h]

theorem assembleFields_operand (h : mnemonicOf t = some m) {o : Token} {v : Int} (ho : operandValue known o = .ok v) :
    assembleFields known [t, o] = emitWord m (some v) := by
  rw [assembleFields, h]
  simp only [ho]

theorem assembleFields_bad_operand (h : mnemonicOf t = some m) {o : Token} {e : AsmError}
    (ho : operandValue known o = .error e) : assembleFields known [t, o] = .error e := by
  rw [assembleFields, h]
  simp only [ho]

theorem assembleFields_operands (h : mnemonicOf t = some m) (o p : Token) (rest : List Token) :
    assembleFields known (t :: o :: p :: rest) = .error .malformedLine := by
  rw [assembleFields, h]

end Fields

/-- A line that assembles is a mnemonic whose emission is the word, with an operand or none. -/
theorem assembleFields_inv {known : Labels} {l : List Token} {w : Int} (h : assembleFields known l = .ok w) :
    ∃ m operand, emitWord m operand = .ok w := by
  cases l with
  | nil => cases h
  | cons t operands =>
    cases hm : mnemonicOf t with
    | none => rw [assembleFields, hm] at h; cases h
    | some m =>
      match operands with
      | [] => exact ⟨m, none, by rw [← h, assembleFields_no_operand hm]⟩
      | [o] =>
        cases ho : operandValue known o with
        | ok v => exact ⟨m, some v, by rw [← h, assembleFields_operand hm ho]⟩
        | error e => rw [assembleFields_bad_operand hm ho] at h; cases h
      | o :: p :: rest => rw [assembleFields_operands hm] at h; cases h

/-- Pass 2 emits one word for each line. -/
theorem emitLines_spec {known : Labels} {lines : List (List Token)} : ∀ {n : Nat} {ws : List Int},
    emitLines known n lines = .ok ws → ws.length = lines.length ∧ ∀ w ∈ ws, WordFits w := by
  induction lines with
  | nil => intro n ws h; cases h; simp
  | cons l ls ih =>
    intro n ws h
    rw [emitLines] at h
    split at h
    · cases h
    · next w hw =>
      obtain ⟨m, operand, hemit⟩ := assembleFields_inv hw
      split at h
      · cases h
      · next ws' hws =>
        cases h
        obtain ⟨hlen, hfits⟩ := ih hws
        exact ⟨by simp [hlen], List.forall_mem_cons.2 ⟨emitWord_fits hemit, hfits⟩⟩

/-- A source that assembles has at most 100 lines, which pass 1 and pass 2 accept. -/
theorem assemble_inv {source : Text} {image : List Int} (h : assemble source = .ok image) :
    (sourceLines source).length ≤ 100 ∧ ∃ known, collectLabels 0 [] (sourceLines source) = .ok known ∧
      emitLines known 0 (sourceLines source) = .ok image := by
  unfold assemble at h
  split at h
  · cases h
  · next hlen =>
    split at h
    · cases h
    · next known hknown => exact ⟨Nat.not_lt.1 hlen, known, hknown, h⟩

/-- Settles O48: pass 2 emits one word for each of at most 100 lines, and such an image is one the loader accepts. -/
theorem assembledImagesLoad : Obligations.AssembledImagesLoad := by
  intro source image answers h
  obtain ⟨hlines, known, -, hemit⟩ := assemble_inv h
  obtain ⟨hlen, hfits⟩ := emitLines_spec hemit
  have hshort : image.length ≤ 100 := hlen ▸ hlines
  exact ⟨hlen, hshort, hfits, _, boot_of_fits hshort hfits answers, rfl⟩

/-! ### Labels (R103, R104) -/

theorem Labels.find_cons (x : Token) (n : Nat) (known : Labels) (t : Token) :
    Labels.find ((x, n) :: known) t = if x = t then some n else known.find t := rfl

/-- A line that pass 1 accepts defines no label, or one not known yet. -/
theorem collectLabels_cons_inv {n : Nat} {known result : Labels} {l : List Token} {ls : List (List Token)}
    (h : collectLabels n known (l :: ls) = .ok result) :
    (definedLabel l = none ∧ collectLabels (n + 1) known ls = .ok result) ∨
    ∃ x, definedLabel l = some x ∧ known.find x = none ∧
      collectLabels (n + 1) ((x, n) :: known) ls = .ok result := by
  rw [collectLabels] at h
  split at h
  · cases h
  · split at h
    · next hl => exact .inl ⟨hl, h⟩
    · next x hl =>
      split at h
      · cases h
      · next hx => exact .inr ⟨x, hl, Option.not_isSome_iff_eq_none.1 hx, h⟩

/-- Pass 1 keeps every label it knows, binds each label a line defines to that line's address, and binds no other. -/
theorem collectLabels_spec {lines : List (List Token)} : ∀ {n : Nat} {known result : Labels},
    collectLabels n known lines = .ok result →
    (∀ x k, known.find x = some k → result.find x = some k) ∧
    (∀ i l x, lines[i]? = some l → definedLabel l = some x → result.find x = some (n + i)) ∧
    (∀ x k, result.find x = some k →
      known.find x = some k ∨ ∃ i l, k = n + i ∧ lines[i]? = some l ∧ definedLabel l = some x) := by
  induction lines with
  | nil =>
    intro n known result h
    cases h
    exact ⟨fun _ _ hx => hx, by simp, fun _ _ hx => .inl hx⟩
  | cons l ls ih =>
    intro n known result h
    obtain ⟨hl, hrest⟩ | ⟨y, hl, hnew, hrest⟩ := collectLabels_cons_inv h
    · obtain ⟨hkeep, hbind, honly⟩ := ih hrest
      refine ⟨hkeep, fun i l' x hi hx => ?_, fun x k hx => (honly x k hx).imp_right ?_⟩
      · cases i with
        | zero => cases hi; rw [hl] at hx; cases hx
        | succ i => rw [hbind i l' x hi hx, Nat.add_right_comm, Nat.add_assoc]
      · rintro ⟨i, l', rfl, hi, hx⟩
        exact ⟨i + 1, l', by omega, hi, hx⟩
    · obtain ⟨hkeep, hbind, honly⟩ := ih hrest
      refine ⟨fun x k hx => hkeep x k ?_, fun i l' x hi hx => ?_, fun x k hx => ?_⟩
      · have hne : y ≠ x := by rintro rfl; rw [hnew] at hx; cases hx
        rw [Labels.find_cons, if_neg hne, hx]
      · cases i with
        | zero =>
          cases hi
          rw [hl] at hx
          cases hx
          exact hkeep y n (by rw [Labels.find_cons, if_pos rfl])
        | succ i => rw [hbind i l' x hi hx, Nat.add_right_comm, Nat.add_assoc]
      · obtain hx | ⟨i, l', rfl, hi, hx⟩ := honly x k hx
        · rw [Labels.find_cons] at hx
          split at hx
          · next heq => cases hx; exact .inr ⟨0, l, rfl, rfl, heq ▸ hl⟩
          · exact .inl hx
        · exact .inr ⟨i + 1, l', by omega, hi, hx⟩

/-- Settles O50: pass 1 starts with no label known, at address 0. -/
theorem labelsBindToTheirLines : Obligations.LabelsBindToTheirLines := by
  intro lines known h
  obtain ⟨-, hbind, honly⟩ := collectLabels_spec h
  refine ⟨fun i l x hi hx => by rw [hbind i l x hi hx, zero_add], fun x k hx => ?_⟩
  obtain hnone | ⟨i, l, rfl, hi, hl⟩ := honly x k hx
  · cases hnone
  · exact ⟨l, by rw [zero_add]; exact hi, hl⟩

/-! ### Mnemonics, and STO (R101, R111) -/

/-- A token that is a mnemonic's spelling in any case of letters is that mnemonic. -/
theorem mnemonicOf_of_upperCase {t : Token} {m : Mnemonic} (h : upperCase t = m.spelling) : mnemonicOf t = some m := by
  unfold mnemonicOf
  rw [h]
  cases m <;> decide

theorem mnemonicOf_spelling (m : Mnemonic) : mnemonicOf m.spelling = some m := by
  apply mnemonicOf_of_upperCase
  cases m <;> decide

/-- Two mnemonics that emit alike assemble alike, whatever stands after them. -/
theorem assembleFields_congr {known : Labels} {t u : Token} {m m' : Mnemonic} (ht : mnemonicOf t = some m)
    (hu : mnemonicOf u = some m') (hemit : ∀ operand, emitWord m operand = emitWord m' operand)
    (operands : List Token) : assembleFields known (t :: operands) = assembleFields known (u :: operands) := by
  match operands with
  | [] => rw [assembleFields_no_operand ht, assembleFields_no_operand hu, hemit]
  | [o] =>
    cases ho : operandValue known o with
    | ok v => rw [assembleFields_operand ht ho, assembleFields_operand hu ho, hemit]
    | error e => rw [assembleFields_bad_operand ht ho, assembleFields_bad_operand hu ho]
  | o :: p :: rest => rw [assembleFields_operands ht, assembleFields_operands hu]

/-- Settles O52: STA and STO have one emission, and the count of lines is checked before pass 1. -/
theorem stoIsStaAndLongSourcesFail : Obligations.StoIsStaAndLongSourcesFail :=
  ⟨fun _ _ _ operands ht hu => assembleFields_congr (mnemonicOf_of_upperCase (m := .STA) ht)
    (mnemonicOf_of_upperCase (m := .STO) hu) (fun _ => rfl) operands, fun _ hlong => if_pos hlong⟩

/-! ### Disassembly (R115) -/

theorem spelling_token (m : Mnemonic) : m.spelling ≠ [] ∧ ∀ c ∈ m.spelling, isSpace c = false := by
  cases m <;> simp [Mnemonic.spelling, isSpace]

/-- A character that is no white space is no line feed. -/
theorem ne_lineFeed_of_not_space {c : Char} (h : isSpace c = false) : c ≠ '\n' := by
  rintro rfl
  cases h

/-- A text of one line that begins with a mnemonic and has at most two fields after it assembles as that line. -/
theorem assemble_of_one_line {text : Text} {m : Mnemonic} {operands : List Token} {w : Int}
    (htext : ∀ c ∈ text, c ≠ '\n') (htokens : tokens text = m.spelling :: operands) (hlen : operands.length ≤ 2)
    (hw : assembleFields [] (m.spelling :: operands) = .ok w) : assemble text = .ok [w] := by
  have hm : (mnemonicOf m.spelling).isSome = true := by rw [mnemonicOf_spelling]; rfl
  have hlines : sourceLines text = [m.spelling :: operands] := by
    simp [sourceLines, splitLines_single text htext, htokens]
  have hlabels : collectLabels 0 [] [m.spelling :: operands] = .ok [] := by
    have hshort : operands.length < 3 := Nat.lt_succ_of_le hlen
    simp [collectLabels, definedLabel, hm, hshort]
  have hlabel : withoutLabel (m.spelling :: operands) = m.spelling :: operands := if_pos hm
  have hemit : emitLines [] 0 [m.spelling :: operands] = .ok [w] := by
    rw [emitLines, hlabel, hw]; rfl
  rw [assemble, hlines, if_neg (by simp), hlabels]
  exact hemit

/-- A mnemonic alone. -/
theorem assemble_mnemonic {m : Mnemonic} {w : Int} (hw : emitWord m none = .ok w) : assemble m.spelling = .ok [w] := by
  obtain ⟨hne, hchars⟩ := spelling_token m
  refine assemble_of_one_line (fun c hc => ne_lineFeed_of_not_space (hchars c hc)) (tokens_single _ hne hchars)
    (by simp) ?_
  rw [assembleFields_no_operand (mnemonicOf_spelling m), hw]

/-- A mnemonic and a literal (R106). -/
theorem assemble_mnemonic_literal {m : Mnemonic} {t : Token} {n : Nat} {w : Int} (hne : t ≠ [])
    (hchars : ∀ c ∈ t, isSpace c = false) (ht : parseNat t = some n) (hw : emitWord m (some (n : Int)) = .ok w) :
    assemble (m.spelling ++ ' ' :: t) = .ok [w] := by
  obtain ⟨hmne, hmchars⟩ := spelling_token m
  have hvalue : operandValue [] t = .ok (n : Int) := by simp [operandValue, Labels.find, ht]
  refine assemble_of_one_line (m := m) (operands := [t]) (fun c hc => ?_) ?_ (by simp) ?_
  · rcases List.mem_append.1 hc with hc | hc
    · exact ne_lineFeed_of_not_space (hmchars c hc)
    · rcases List.mem_cons.1 hc with rfl | hc
      · decide
      · exact ne_lineFeed_of_not_space (hchars c hc)
  · rw [tokens_append _ _ _ hmne hmchars rfl, tokens_single _ hne hchars]
  · rw [assembleFields_operand (mnemonicOf_spelling m) hvalue, hw]

/-- The text of an addressed instruction assembles to its word. -/
theorem assemble_disassembleAddressed {m : Mnemonic} {d a : Int} (hm : m.emission = .addressed d) (ha : OperandOk a) :
    assemble (disassembleAddressed m a) = .ok [100 * d + a] := by
  obtain ⟨hne, hchars⟩ := twoDigits_token a.toNat
  have hn : a.toNat ≤ 99 := by omega
  refine assemble_mnemonic_literal hne hchars (parseNat_twoDigits hn) ?_
  unfold emitWord
  rw [Int.toNat_of_nonneg ha.1, hm]
  exact if_pos ha

/-- The text of a data word assembles to the word. -/
theorem assemble_disassembleData {w : Int} (hw : InRange w 0 999) : assemble (disassembleData w) = .ok [w] := by
  obtain ⟨hne, hchars⟩ := threeDigits_token w.toNat
  have hn : w.toNat ≤ 999 := by omega
  refine assemble_mnemonic_literal hne hchars (parse_threeDigits hn).2 ?_
  rw [Int.toNat_of_nonneg hw.1]
  exact if_pos hw

/-- Settles O51: by the instruction the word decodes to, its text is a mnemonic alone, a mnemonic with the operand, or a
data word. -/
theorem disassemblyReassembles : Obligations.DisassemblyReassembles := by
  intro w hw
  obtain ⟨i, hi⟩ := decode_ok hw
  obtain ⟨hopcode, hoperand, hwf⟩ := decode_inv hi
  have ha : OperandOk i.operand := ((wellFormed_iff i).1 hwf).1
  have hdigits : 100 * i.opcode + i.operand = w := by
    rw [← hopcode, ← hoperand]; exact Int.mul_ediv_add_emod w 100
  rw [disassemble, hi]
  cases i with
  | hlt a =>
    by_cases hzero : a = 0
    · obtain rfl : w = 0 := by simp only [Instr.opcode, Instr.operand] at hdigits; omega
      simpa only [if_pos hzero] using assemble_mnemonic (m := .HLT) rfl
    · simpa only [if_neg hzero] using assemble_disassembleData hw
  | invalidOpcode | ioReserved => exact assemble_disassembleData hw
  | inp => rw [← hdigits]; exact assemble_mnemonic (m := .INP) rfl
  | out => rw [← hdigits]; exact assemble_mnemonic (m := .OUT) rfl
  | _ => rw [← hdigits]; exact assemble_disassembleAddressed rfl ha

end Sys2Proof.Machine
end
